-- ==== Sys2Proof/Word.lean ====
section
/-! DEFINITION. The widths of the block's values (00_scope.md R7, R8, R9). -/

namespace Sys2Proof

/-- A Word: one memory cell, and the registers IR, AC, DR (R7, R9). -/
abbrev Word := BitVec 16

/-- An Address: an integer in `[0, 4095]`, and the registers PC, AR (R7, R9). -/
abbrev Address := BitVec 12

/-- The flag E (R7, R17). -/
abbrev Flag := BitVec 1

/-- The timing-state register T, holding n for Tn (R7, R22). -/
abbrev TimingState := BitVec 3

/-- The program-length register PLEN (R7, R25). -/
abbrev ProgramLength := BitVec 13

end Sys2Proof
end

