-- ==== Sys2Proof/Config.lean ====
section
/-! DEFINITION. The implementation parameters of 00_scope.md R7. -/

namespace Sys2Proof.Config

/-- MEM_WORDS: the number of memory cells (R7, R31). -/
def memWords : Nat := 4096

/-- The word an unlisted memory cell holds: the initial memory is all zero (R7, R31). -/
def initialCell : Word := 0

/-- The parameter `MICRO_ROM_ENCODING`, left OPEN by the spec (R7, R71, D26): the bits of the ROM word
for a variant's number and a timing state. It is not observable, so no definition uses it. -/
opaque microRomEncoding : Nat → Nat → Nat

/-- The parameter `HOST_PORT_MAP`, left OPEN by the spec (D37): the name of each port of the host command
interface. No rule depends on it, so no definition uses it. -/
opaque hostPortMap : Nat → String

end Sys2Proof.Config
end

