-- ==== Sys2Proof/Syntax.lean ====
section
/-! DEFINITION. The closed set of instruction variants (30_encoding.md R51), one constructor per row of
spec/opcode_table.json. -/

namespace Sys2Proof

/-- The 21 variants of R51.
A memory-reference variant carries its I bit (`true` is indirect) and its ADDR field.
IO and NOP carry bits 11:0 of their word, which T2 loads into AR (R69, R97, R98). -/
inductive Instr where
  | and (ind : Bool) (addr : Address)
  | add (ind : Bool) (addr : Address)
  | load (ind : Bool) (addr : Address)
  | store (ind : Bool) (addr : Address)
  | bun (ind : Bool) (addr : Address)
  | bsa (ind : Bool) (addr : Address)
  | isz (ind : Bool) (addr : Address)
  | cla
  | cle
  | cma
  | cme
  | cir
  | cil
  | inc
  | spa
  | sna
  | sza
  | sze
  | halt
  | io (field : Address)
  | nop (field : Address)
deriving DecidableEq, Repr

end Sys2Proof
end

