-- ==== Sys2Proof/WellFormed.lean ====
section
/-! DEFINITION. Which terms of `Instr` stand for a word. -/

namespace Sys2Proof

/-- The operation fields of the twelve register-reference variants: one bit set each (30_encoding.md R53). -/
def oneHotFields : List Address :=
  [0x800, 0x400, 0x200, 0x100, 0x080, 0x040, 0x020, 0x010, 0x008, 0x004, 0x002, 0x001]

/-- NOP is the fallback for the fields that name no register-reference variant (R52, R98); every other term
stands for a word as it is, its fields being of the word's own widths. -/
def Instr.WellFormed : Instr → Bool
  | .nop field => !oneHotFields.contains field
  | .and _ _ | .add _ _ | .load _ _ | .store _ _ | .bun _ _ | .bsa _ _ | .isz _ _ => true
  | .cla | .cle | .cma | .cme | .cir | .cil | .inc | .spa | .sna | .sza | .sze | .halt => true
  | .io _ => true

end Sys2Proof
end

