-- ==== Sys2Proof/Decode.lean ====
section
/-! DEFINITION. The instruction word: its fields, the decoder and, after it, the encoder
(30_encoding.md R48 to R54). -/

namespace Sys2Proof

/-- I, bit 15 (R48). -/
def iBit (w : Word) : Bool := w.getLsbD 15

/-- OP, bits 14:12 (R48). -/
def opField (w : Word) : BitVec 3 := w.extractLsb' 12 3

/-- ADDR, bits 11:0 (R48). -/
def addrField (w : Word) : Address := w.extractLsb' 0 12

/-- The words of opcode 111 with I = 0, by their operation field (R52, R53). -/
def decodeRegisterReference (a : Address) : Instr :=
  if a = 0x800 then .cla
  else if a = 0x400 then .cle
  else if a = 0x200 then .cma
  else if a = 0x100 then .cme
  else if a = 0x080 then .cir
  else if a = 0x040 then .cil
  else if a = 0x020 then .inc
  else if a = 0x010 then .spa
  else if a = 0x008 then .sna
  else if a = 0x004 then .sza
  else if a = 0x002 then .sze
  else if a = 0x001 then .halt
  else .nop a

/-- The decoder, total on all 65536 words; no word is illegal (R52, R54). -/
def decode (w : Word) : Instr :=
  let i := iBit w
  let op := opField w
  let a := addrField w
  if op = 0b000 then .and i a
  else if op = 0b001 then .add i a
  else if op = 0b010 then .load i a
  else if op = 0b011 then .store i a
  else if op = 0b100 then .bun i a
  else if op = 0b101 then .bsa i a
  else if op = 0b110 then .isz i a
  else if i then .io a
  else decodeRegisterReference a

/-- The instruction read from a row of spec/opcode_table.json: `nbits` bits `w`, bits above them zero.
An instruction is exactly one 16-bit word (R47), so a longer row, or a number that does not fit the row's
bits, is not an instruction. -/
def decodeTableWord (nbits w : Nat) : Option Instr :=
  if nbits ≤ 16 ∧ w < 2 ^ nbits then some (decode (BitVec.ofNat 16 w)) else none

/-- The I bit of the word that stands for an instruction (R53). -/
def Instr.indirectBit : Instr → Bool
  | .and ind _ | .add ind _ | .load ind _ | .store ind _ | .bun ind _ | .bsa ind _ | .isz ind _ => ind
  | .io _ => true
  | .cla | .cle | .cma | .cme | .cir | .cil | .inc | .spa | .sna | .sza | .sze | .halt => false
  | .nop _ => false

/-- The OP field of the word that stands for an instruction (R53). -/
def Instr.opcode : Instr → BitVec 3
  | .and _ _ => 0b000
  | .add _ _ => 0b001
  | .load _ _ => 0b010
  | .store _ _ => 0b011
  | .bun _ _ => 0b100
  | .bsa _ _ => 0b101
  | .isz _ _ => 0b110
  | .cla | .cle | .cma | .cme | .cir | .cil | .inc | .spa | .sna | .sza | .sze | .halt => 0b111
  | .io _ | .nop _ => 0b111

/-- The ADDR field of the word that stands for an instruction (R53). -/
def Instr.field : Instr → Address
  | .and _ a | .add _ a | .load _ a | .store _ a | .bun _ a | .bsa _ a | .isz _ a => a
  | .cla => 0x800
  | .cle => 0x400
  | .cma => 0x200
  | .cme => 0x100
  | .cir => 0x080
  | .cil => 0x040
  | .inc => 0x020
  | .spa => 0x010
  | .sna => 0x008
  | .sza => 0x004
  | .sze => 0x002
  | .halt => 0x001
  | .io field | .nop field => field

/-- The word with the given fields: `I * 0x8000 + OP * 0x1000 + ADDR` (R48, R60). -/
def packWord (i : Bool) (op : BitVec 3) (a : Address) : Word :=
  BitVec.ofNat 16 (i.toNat * 0x8000 + op.toNat * 0x1000 + a.toNat)

/-- The word of an instruction (R53, R59, R60). -/
def encode (i : Instr) : Word := packWord i.indirectBit i.opcode i.field

end Sys2Proof
end

