-- ==== Sys2Proof/Machine/State.lean ====
section
/-! DEFINITION. The block's state, exactly the list of 10_state.md R14, as plain data; the reasons an
operation or a step can stop; the state at session start. -/

namespace Sys2Proof.Machine

/-- Memory M (R31): the cells that do not hold the initial zero word, as (address, word) pairs with the
addresses strictly rising. `Memory.wf` in Ops.lean is that canonical form. The cell is the 16-bit word, the
smallest unit the block has (R33). -/
abbrev Memory := List (Nat × Word)

/-- A register snapshot (R27). -/
structure Snapshot where
  IR : Word
  AC : Word
  DR : Word
  PC : Address
  AR : Address
  E : Flag
  T : TimingState
  halted : Bool
deriving DecidableEq, Repr

/-- One entry of the trace (R28): the timing state executed, the registers after it, and the one memory
address the step referenced, if any. -/
structure TraceEntry where
  label : String
  snap : Snapshot
  memRef : Option Address
deriving DecidableEq, Repr

/-- The block's state (R14), and nothing else (R15). -/
structure State where
  /-- Accumulator (R16). -/
  AC : Word
  /-- Data register (R21). -/
  DR : Word
  /-- Instruction register (R20). -/
  IR : Word
  /-- Program counter (R18). -/
  PC : Address
  /-- Address register (R19). -/
  AR : Address
  /-- Extended/carry flag (R17). -/
  E : Flag
  /-- Timing-state register: the timing state the next step executes (R22). -/
  T : TimingState
  /-- Halt flag (R23). -/
  halted : Bool
  /-- Program-loaded flag (R24). -/
  assembled : Bool
  /-- Program-length register (R25). -/
  PLEN : ProgramLength
  /-- Memory M (R31). -/
  mem : Memory
  /-- The append-only observation history (R29). -/
  trace : List TraceEntry
deriving DecidableEq, Repr

/-- The four error kinds (60_exceptions.md R108). An error is returned to the host, the state staying as it
was before the failing micro-step (R12, R115). -/
inductive Fault where
  /-- Line `line` of the source is bad. Raised by `assemble` only (R112). Safe: nothing changes. -/
  | syntaxError (line : Nat)
  /-- `addr` is outside `[0, 4095]`. Raised by T2 of an indirect memory-reference instruction and by
  `writeMemory` (R109). Safe: the error is the spec's own, and nothing changes. -/
  | outOfRange (addr : Nat)
  /-- No `assemble` has succeeded yet. Raised by `step`, `runInstruction`, `runToHalt` (R110). Safe: nothing
  changes. -/
  | notAssembled
  /-- The bound of `runToHalt` was reached without Halt. Raised by `runToHalt` only (R111). Safe: the
  micro-steps done stay done. -/
  | stepLimitExceeded
deriving DecidableEq, Repr

/-- Why the model gives a state no successor. -/
inductive Refusal where
  /-- The instruction has no meaning in this model. Raised by an arm of `exec`; no arm of this model raises
  it. Safe. -/
  | notModelled (mnemonic : String)
  /-- The microinstruction ROM has no entry for the variant in timing state `t` (R71; 93_implementation_defined.md
  I5, I6: "refuse"). Raised by the execute part of a meaning; no state reachable from session start raises
  it. Safe. -/
  | noRomEntry (t : Nat)
deriving DecidableEq, Repr

/-- Session start (R124): every register 0, memory all zero, nothing assembled, the trace empty.
`reset()` applied to it is the identity (R125; 95_test_vectors.md H3). -/
def State.reset : State :=
  { AC := 0, DR := 0, IR := 0, PC := 0, AR := 0, E := 0, T := 0,
    halted := false, assembled := false, PLEN := 0, mem := [], trace := [] }

end Sys2Proof.Machine
end

