-- ==== Sys2Proof/Machine/Flags.lean ====
section
/-! DEFINITION. The accumulator ALU: results, the flag E and the skip conditions, by the arithmetic of
40_instruction_cycle.md R72. -/

namespace Sys2Proof.Machine

/-- `sum := AC + DR`, exact: 0 .. 131070 (R72, R77). -/
def exactSum (ac dr : Word) : Nat := ac.toNat + dr.toNat

/-- `sum mod 2^16` (R77). -/
def sumWord (ac dr : Word) : Word := BitVec.ofNat 16 (exactSum ac dr)

/-- `sum div 2^16`, the carry out of bit 15 (R77). -/
def sumCarry (ac dr : Word) : Flag := BitVec.ofNat 1 (exactSum ac dr / 2 ^ 16)

/-- `E * 0x8000 + (AC div 2)` (R89). -/
def circulateRightWord (e : Flag) (ac : Word) : Word := BitVec.ofNat 16 (e.toNat * 0x8000 + ac.toNat / 2)

/-- `AC mod 2` (R89). -/
def circulateRightFlag (ac : Word) : Flag := BitVec.ofNat 1 (ac.toNat % 2)

/-- `(AC * 2) mod 2^16 + E` (R90). -/
def circulateLeftWord (e : Flag) (ac : Word) : Word := BitVec.ofNat 16 (ac.toNat * 2 % 2 ^ 16 + e.toNat)

/-- `AC div 0x8000` (R90). -/
def circulateLeftFlag (ac : Word) : Flag := BitVec.ofNat 1 (ac.toNat / 0x8000)

/-- `1 - E` (R88). -/
def complementFlag (e : Flag) : Flag := BitVec.ofNat 1 (1 - e.toNat)

/-- `AC[15] = 0`, zero included (R92). -/
def isPositive (ac : Word) : Bool := !ac.getLsbD 15

/-- `AC[15] = 1` (R93). -/
def isNegative (ac : Word) : Bool := ac.getLsbD 15

/-- The word is zero: `AC = 0` (R94), `DR = 0` (R82). -/
def isZeroWord (v : Word) : Bool := v == 0

/-- `E = 0` (R95). -/
def isZeroFlag (e : Flag) : Bool := e == 0

/-- `if c then PC <- (PC + 1) mod 4096` (R72, R84). -/
def skipTarget (c : Bool) (pc : Address) : Address := if c then pc + 1 else pc

end Sys2Proof.Machine
end

