-- ==== Sys2Proof/Machine/Ops.lean ====
section
/-! DEFINITION. The named operations over registers, memory and the trace, and raising an error. -/

namespace Sys2Proof.Machine

/-! ### Registers: `X <- v` keeps every other register (00_scope.md R10) -/

def State.setAC (s : State) (v : Word) : State := { s with AC := v }
def State.setDR (s : State) (v : Word) : State := { s with DR := v }
def State.setIR (s : State) (v : Word) : State := { s with IR := v }
def State.setPC (s : State) (v : Address) : State := { s with PC := v }
def State.setAR (s : State) (v : Address) : State := { s with AR := v }
def State.setE (s : State) (v : Flag) : State := { s with E := v }
def State.setT (s : State) (v : TimingState) : State := { s with T := v }
def State.setHalted (s : State) (v : Bool) : State := { s with halted := v }
def State.setMem (s : State) (v : Memory) : State := { s with mem := v }

/-! ### Memory (20_memory.md) -/

/-- The keys are addresses, strictly rising from `lo` on, and no listed cell holds the initial word. -/
def Memory.sortedFrom (lo : Nat) : Memory → Bool
  | [] => true
  | (k, v) :: m =>
    decide (lo ≤ k) && decide (k < Config.memWords) && decide (v ≠ Config.initialCell) &&
      Memory.sortedFrom (k + 1) m

/-- The canonical form of memory: equal memories are equal lists. -/
def Memory.wf (m : Memory) : Bool := Memory.sortedFrom 0 m

/-- The word of the cell numbered `a`; a cell that is not listed holds the initial word (R31). -/
def Memory.get : Memory → Nat → Word
  | [], _ => Config.initialCell
  | (k, v) :: m, a => if k = a then v else Memory.get m a

/-- Put `v` into the cell numbered `a`, keeping the canonical form. -/
def Memory.put : Memory → Nat → Word → Memory
  | [], a, v => if v = Config.initialCell then [] else [(a, v)]
  | (k, u) :: m, a, v =>
    if k < a then (k, u) :: Memory.put m a v
    else if k = a then (if v = Config.initialCell then m else (a, v) :: m)
    else (if v = Config.initialCell then (k, u) :: m else (a, v) :: (k, u) :: m)

/-- The primitive `MemRead(a)` (R11, R34). -/
def memRead (m : Memory) (a : Nat) : Except Fault Word :=
  if a < Config.memWords then .ok (m.get a) else .error (.outOfRange a)

/-- The primitive `MemWrite(a, v)`: `v` is masked to 16 bits (R11, R35). -/
def memWrite (m : Memory) (a v : Nat) : Except Fault Memory :=
  if a < Config.memWords then .ok (m.put a (BitVec.ofNat 16 v)) else .error (.outOfRange a)

/-- `MemRead` at an Address, which is always in range (R36). -/
def Memory.read (m : Memory) (a : Address) : Word := m.get a.toNat

/-- `MemWrite` of a Word at an Address, which is always in range (R36). -/
def Memory.write (m : Memory) (a : Address) (v : Word) : Memory := m.put a.toNat v

/-! ### Errors -/

/-- `raise`: the step ends with the error and none of its writes take effect (R12). There is no trap: no
register saves anything, no vector is taken, and nothing returns from it (R115, R116). -/
def raise (f : Fault) : Host.Outcome State Fault Refusal := .fault f

/-- The numeric code of an error kind (R108). -/
def Fault.code : Fault → Nat
  | .syntaxError _ => 1
  | .outOfRange _ => 2
  | .notAssembled => 3
  | .stepLimitExceeded => 4

/-! ### Observation -/

/-- The register snapshot (R27). -/
def State.snapshot (s : State) : Snapshot :=
  { IR := s.IR, AC := s.AC, DR := s.DR, PC := s.PC, AR := s.AR, E := s.E, T := s.T, halted := s.halted }

/-- The label of the timing state `Tn` (R28). -/
def stepLabel (t : TimingState) : String := "T" ++ toString t.toNat

/-- Append the trace entry of a step that executed the timing state `t`, left the state `s` and referenced
`ref` (R28, R29, R65). -/
def State.record (s : State) (t : TimingState) (ref : Option Address) : State :=
  { s with trace := s.trace ++ [{ label := stepLabel t, snap := s.snapshot, memRef := ref }] }

/-! ### Sequencing -/

/-- The end of a step that is not terminal: `T <- T + 1` (R22). -/
def State.advance (s : State) : State := s.setT (s.T + 1)

end Sys2Proof.Machine
end

