-- ==== Sys2Proof/Machine/MicroRom.lean ====
section
/-! DEFINITION. The microinstruction ROM (40_instruction_cycle.md R71), its micro-operations (R72) and the
execution of one ROM entry (R70). -/

namespace Sys2Proof.Machine

/-- The micro-operations of R72, by the table's names. `END` is the `last` mark of a ROM entry. -/
inductive MicroOp where
  | drM | acAnd | acAdd | acDr | mAc | pcAr | mPc | arInc | drInc | mDr | skipDrz
  | acClr | eClr | acCmp | eCmp | rotR | rotL | acInc | skipAcPos | skipAcNeg | skipAcZ | skipEZ | hlt
deriving DecidableEq, Repr

/-- One ROM entry: the micro-operations of one execute state, and whether it is the terminal step (R71). -/
structure RomEntry where
  ops : List MicroOp
  last : Bool
deriving DecidableEq, Repr

/-- The ROM rows of a variant, for T3, T4, T5 (R71). They do not depend on the I bit or the ADDR field. -/
def romRows : Instr → List RomEntry
  | .and _ _ => [⟨[.drM], false⟩, ⟨[.acAnd], true⟩]
  | .add _ _ => [⟨[.drM], false⟩, ⟨[.acAdd], true⟩]
  | .load _ _ => [⟨[.drM], false⟩, ⟨[.acDr], true⟩]
  | .store _ _ => [⟨[.mAc], true⟩]
  | .bun _ _ => [⟨[.pcAr], true⟩]
  | .bsa _ _ => [⟨[.mPc, .arInc], false⟩, ⟨[.pcAr], true⟩]
  | .isz _ _ => [⟨[.drM], false⟩, ⟨[.drInc], false⟩, ⟨[.mDr, .skipDrz], true⟩]
  | .cla => [⟨[.acClr], true⟩]
  | .cle => [⟨[.eClr], true⟩]
  | .cma => [⟨[.acCmp], true⟩]
  | .cme => [⟨[.eCmp], true⟩]
  | .cir => [⟨[.rotR], true⟩]
  | .cil => [⟨[.rotL], true⟩]
  | .inc => [⟨[.acInc], true⟩]
  | .spa => [⟨[.skipAcPos], true⟩]
  | .sna => [⟨[.skipAcNeg], true⟩]
  | .sza => [⟨[.skipAcZ], true⟩]
  | .sze => [⟨[.skipEZ], true⟩]
  | .halt => [⟨[.hlt], true⟩]
  | .io _ => [⟨[], true⟩]
  | .nop _ => [⟨[], true⟩]

/-- The entry of a variant's rows for timing state `t`; T0, T1, T2 are not the ROM's, and a state past the
terminal one has no entry (R71). -/
def romEntry (rows : List RomEntry) (t : Nat) : Option RomEntry := if t < 3 then none else rows[t - 3]?

/-- One micro-operation: it reads the pre-step state `s` and writes the state `acc` that collects the step's
writes (R10, R66, R72). -/
def MicroOp.apply (op : MicroOp) (s acc : State) : State :=
  match op with
  | .drM => acc.setDR (s.mem.read s.AR)
  | .acAnd => acc.setAC (s.AC &&& s.DR)
  | .acAdd => (acc.setAC (sumWord s.AC s.DR)).setE (sumCarry s.AC s.DR)
  | .acDr => acc.setAC s.DR
  | .mAc => acc.setMem (s.mem.write s.AR s.AC)
  | .pcAr => acc.setPC s.AR
  | .mPc => acc.setMem (s.mem.write s.AR (s.PC.setWidth 16))
  | .arInc => acc.setAR (s.AR + 1)
  | .drInc => acc.setDR (s.DR + 1)
  | .mDr => acc.setMem (s.mem.write s.AR s.DR)
  | .skipDrz => acc.setPC (skipTarget (isZeroWord s.DR) s.PC)
  | .acClr => acc.setAC 0
  | .eClr => acc.setE 0
  | .acCmp => acc.setAC (s.AC ^^^ 0xFFFF)
  | .eCmp => acc.setE (complementFlag s.E)
  | .rotR => (acc.setAC (circulateRightWord s.E s.AC)).setE (circulateRightFlag s.AC)
  | .rotL => (acc.setAC (circulateLeftWord s.E s.AC)).setE (circulateLeftFlag s.AC)
  | .acInc => acc.setAC (s.AC + 1)
  | .skipAcPos => acc.setPC (skipTarget (isPositive s.AC) s.PC)
  | .skipAcNeg => acc.setPC (skipTarget (isNegative s.AC) s.PC)
  | .skipAcZ => acc.setPC (skipTarget (isZeroWord s.AC) s.PC)
  | .skipEZ => acc.setPC (skipTarget (isZeroFlag s.E) s.PC)
  | .hlt => acc.setHalted true

/-- All the micro-operations of one state: each reads `s`, and their writes are combined (R70). -/
def applyOps (ops : List MicroOp) (s : State) : State := ops.foldl (fun acc op => op.apply s acc) s

/-- Execute one ROM entry: the writes, then `T <- 0` after the terminal step and `T <- T + 1` otherwise
(R22, R70). -/
def executeEntry (e : RomEntry) (s : State) : State :=
  if e.last then (applyOps e.ops s).setT 0 else (applyOps e.ops s).setT (s.T + 1)

/-- The micro-step of an instruction in the states that belong to it: T2 finds the operand, T3 to T5 execute
the ROM's rows (R69, R70). -/
def instructionStep (operand : State → Host.Outcome State Fault Refusal) (rows : List RomEntry) (s : State) :
    Host.Outcome State Fault Refusal :=
  if s.T = 2 then operand s
  else
    match romEntry rows s.T.toNat with
    | some e => .next (executeEntry e s)
    | none => .refused (.noRomEntry s.T.toNat)

/-- A micro-operation that reads or writes the memory cell at AR (R73). -/
def MicroOp.touchesMemory : MicroOp → Bool
  | .drM | .mAc | .mPc | .mDr => true
  | .acAnd | .acAdd | .acDr | .pcAr | .arInc | .drInc | .skipDrz => false
  | .acClr | .eClr | .acCmp | .eCmp | .rotR | .rotL | .acInc => false
  | .skipAcPos | .skipAcNeg | .skipAcZ | .skipEZ | .hlt => false

end Sys2Proof.Machine
end

