-- ==== Sys2Proof/Machine/Operands.lean ====
section
/-! DEFINITION. The operand forms: what T2 loads into AR (30_encoding.md R50, 40_instruction_cycle.md R69,
41_memory_reference.md R75, R83). -/

namespace Sys2Proof.Machine

/-- A word that makes no indirect read: `AR <- IR[11:0]`. This is the direct form of a memory-reference
instruction, and every register-reference, IO and NOP word (R69). -/
def fieldOperand (a : Address) (s : State) : Host.Outcome State Fault Refusal :=
  .next (s.setAR a).advance

/-- The indirect form: `AR <- M[a]`, which must be an Address (R69, R109). -/
def indirectOperand (a : Address) (s : State) : Host.Outcome State Fault Refusal :=
  let ea := s.mem.read a
  if 4095 < ea.toNat then raise (.outOfRange ea.toNat)
  else .next (s.setAR (BitVec.ofNat 12 ea.toNat)).advance

/-- The operand of a memory-reference instruction, by its I bit (R75). -/
def memoryOperand (ind : Bool) (a : Address) (s : State) : Host.Outcome State Fault Refusal :=
  if ind then indirectOperand a s else fieldOperand a s

end Sys2Proof.Machine
end

