-- ==== Sys2Proof/Machine/IoNop.lean ====
section
/-! DEFINITION. The I/O class and the no-operation fallback (43_io_and_nop.md R97, R98): four-step
no-operations whose T2 loads AR with bits 11:0 of the word. -/

namespace Sys2Proof.Machine

/-- IO: bit 15 is the class selector, so T2 makes no indirect read; T3 does nothing (R97). -/
def execIo (field : Address) (s : State) : Host.Outcome State Fault Refusal :=
  instructionStep (fieldOperand field) (romRows (.io field)) s

/-- NOP: the fallback for the words that name no instruction; T3 does nothing (R98). -/
def execNop (field : Address) (s : State) : Host.Outcome State Fault Refusal :=
  instructionStep (fieldOperand field) (romRows (.nop field)) s

end Sys2Proof.Machine
end

