-- ==== Sys2Proof/Machine/MemoryReference.lean ====
section
/-! DEFINITION. The memory-reference instructions (41_memory_reference.md R75 to R83). Each meaning is the
instruction's micro-step in the state's timing state: T2 finds the operand, direct or indirect, and T3 on
execute its rows of the ROM. -/

namespace Sys2Proof.Machine

/-- AND: `T3: DR <- MemRead(AR)`, `T4: AC <- AC AND DR` (R76). -/
def execAnd (ind : Bool) (a : Address) (s : State) : Host.Outcome State Fault Refusal :=
  instructionStep (memoryOperand ind a) (romRows (.and ind a)) s

/-- ADD: `T3: DR <- MemRead(AR)`, `T4: AC <- AC + DR`, `E <-` the carry (R77). -/
def execAdd (ind : Bool) (a : Address) (s : State) : Host.Outcome State Fault Refusal :=
  instructionStep (memoryOperand ind a) (romRows (.add ind a)) s

/-- LOAD: `T3: DR <- MemRead(AR)`, `T4: AC <- DR` (R78). -/
def execLoad (ind : Bool) (a : Address) (s : State) : Host.Outcome State Fault Refusal :=
  instructionStep (memoryOperand ind a) (romRows (.load ind a)) s

/-- STORE: `T3: MemWrite(AR, AC)` (R79). -/
def execStore (ind : Bool) (a : Address) (s : State) : Host.Outcome State Fault Refusal :=
  instructionStep (memoryOperand ind a) (romRows (.store ind a)) s

/-- BUN: `T3: PC <- AR` (R80). -/
def execBun (ind : Bool) (a : Address) (s : State) : Host.Outcome State Fault Refusal :=
  instructionStep (memoryOperand ind a) (romRows (.bun ind a)) s

/-- BSA: `T3: MemWrite(AR, zext_16(PC)); AR <- AR + 1`, `T4: PC <- AR` (R81). -/
def execBsa (ind : Bool) (a : Address) (s : State) : Host.Outcome State Fault Refusal :=
  instructionStep (memoryOperand ind a) (romRows (.bsa ind a)) s

/-- ISZ: `T3: DR <- MemRead(AR)`, `T4: DR <- DR + 1`, `T5: MemWrite(AR, DR)` and the skip (R82). -/
def execIsz (ind : Bool) (a : Address) (s : State) : Host.Outcome State Fault Refusal :=
  instructionStep (memoryOperand ind a) (romRows (.isz ind a)) s

end Sys2Proof.Machine
end

