-- ==== Sys2Proof/Machine/RegisterReference.lean ====
section
/-! DEFINITION. The register-reference instructions (42_register_reference.md R84 to R96). T2 loads AR with the
operation field, which the instruction does not use (R84), and T3 is the operation. -/

namespace Sys2Proof.Machine

/-- CLA: `AC <- 0` (R85). -/
def execCla (s : State) : Host.Outcome State Fault Refusal :=
  instructionStep (fieldOperand Instr.cla.field) (romRows .cla) s

/-- CLE: `E <- 0` (R86). -/
def execCle (s : State) : Host.Outcome State Fault Refusal :=
  instructionStep (fieldOperand Instr.cle.field) (romRows .cle) s

/-- CMA: `AC <- AC XOR 0xFFFF` (R87). -/
def execCma (s : State) : Host.Outcome State Fault Refusal :=
  instructionStep (fieldOperand Instr.cma.field) (romRows .cma) s

/-- CME: `E <- 1 - E` (R88). -/
def execCme (s : State) : Host.Outcome State Fault Refusal :=
  instructionStep (fieldOperand Instr.cme.field) (romRows .cme) s

/-- CIR: `{E, AC}` rotates right by one (R89). -/
def execCir (s : State) : Host.Outcome State Fault Refusal :=
  instructionStep (fieldOperand Instr.cir.field) (romRows .cir) s

/-- CIL: `{E, AC}` rotates left by one (R90). -/
def execCil (s : State) : Host.Outcome State Fault Refusal :=
  instructionStep (fieldOperand Instr.cil.field) (romRows .cil) s

/-- INC: `AC <- AC + 1`, E unchanged (R91). -/
def execInc (s : State) : Host.Outcome State Fault Refusal :=
  instructionStep (fieldOperand Instr.inc.field) (romRows .inc) s

/-- SPA: skip if `AC[15] = 0` (R92). -/
def execSpa (s : State) : Host.Outcome State Fault Refusal :=
  instructionStep (fieldOperand Instr.spa.field) (romRows .spa) s

/-- SNA: skip if `AC[15] = 1` (R93). -/
def execSna (s : State) : Host.Outcome State Fault Refusal :=
  instructionStep (fieldOperand Instr.sna.field) (romRows .sna) s

/-- SZA: skip if `AC = 0` (R94). -/
def execSza (s : State) : Host.Outcome State Fault Refusal :=
  instructionStep (fieldOperand Instr.sza.field) (romRows .sza) s

/-- SZE: skip if `E = 0` (R95). -/
def execSze (s : State) : Host.Outcome State Fault Refusal :=
  instructionStep (fieldOperand Instr.sze.field) (romRows .sze) s

/-- HALT: `halted <- 1` (R96). -/
def execHalt (s : State) : Host.Outcome State Fault Refusal :=
  instructionStep (fieldOperand Instr.halt.field) (romRows .halt) s

end Sys2Proof.Machine
end

