-- ==== Sys2Proof/Machine/Dispatch.lean ====
section
/-! DEFINITION. exec: the micro-step of instruction `i` in timing state `s.T`, T2 to T5 (R69, R70). One arm per
constructor, each one direct call of its meaning. -/

namespace Sys2Proof.Machine

def exec (i : Instr) (s : State) : Host.Outcome State Fault Refusal :=
  match i with
  | .and ind a => Sys2Proof.Machine.execAnd ind a s
  | .add ind a => Sys2Proof.Machine.execAdd ind a s
  | .load ind a => Sys2Proof.Machine.execLoad ind a s
  | .store ind a => Sys2Proof.Machine.execStore ind a s
  | .bun ind a => Sys2Proof.Machine.execBun ind a s
  | .bsa ind a => Sys2Proof.Machine.execBsa ind a s
  | .isz ind a => Sys2Proof.Machine.execIsz ind a s
  | .cla => Sys2Proof.Machine.execCla s
  | .cle => Sys2Proof.Machine.execCle s
  | .cma => Sys2Proof.Machine.execCma s
  | .cme => Sys2Proof.Machine.execCme s
  | .cir => Sys2Proof.Machine.execCir s
  | .cil => Sys2Proof.Machine.execCil s
  | .inc => Sys2Proof.Machine.execInc s
  | .spa => Sys2Proof.Machine.execSpa s
  | .sna => Sys2Proof.Machine.execSna s
  | .sza => Sys2Proof.Machine.execSza s
  | .sze => Sys2Proof.Machine.execSze s
  | .halt => Sys2Proof.Machine.execHalt s
  | .io field => Sys2Proof.Machine.execIo field s
  | .nop field => Sys2Proof.Machine.execNop field s

end Sys2Proof.Machine
end

