-- ==== Sys2Proof/Machine/Cycle.lean ====
section
/-! DEFINITION. The instruction cycle (40_instruction_cycle.md): the common states T0 and T1, the memory
address a step references, one micro-step with its trace entry, and the host's checks around it. -/

namespace Sys2Proof.Machine

/-- T0 (Address), with the halt check: a fetch is attempted only when `PC < PLEN` (R25, R67). -/
def addressState (s : State) : State :=
  if s.PLEN.toNat ≤ s.PC.toNat then (s.setHalted true).setT 0
  else (s.setAR s.PC).setT 1

/-- T1 (Fetch): `IR <- M[AR]`, `PC <- PC + 1 mod 4096` (R68). -/
def fetchState (s : State) : State := ((s.setIR (s.mem.read s.AR)).setPC (s.PC + 1)).setT 2

/-- The address that T2 of an instruction reads: the pointer cell of an indirect memory-reference
instruction, and none for any other word (R73). -/
def operandRef : Instr → Option Address
  | .and ind a | .add ind a | .load ind a | .store ind a | .bun ind a | .bsa ind a | .isz ind a =>
    if ind then some a else none
  | .cla | .cle | .cma | .cme | .cir | .cil | .inc | .spa | .sna | .sza | .sze | .halt => none
  | .io _ | .nop _ => none

/-- The address that an execute state reads or writes: AR when it holds a memory micro-operation (R73). -/
def executeRef (i : Instr) (s : State) : Option Address :=
  match romEntry (romRows i) s.T.toNat with
  | some e => if e.ops.any MicroOp.touchesMemory then some s.AR else none
  | none => none

/-- The `memRef` of the micro-step that the pre-step state `s` is about to do (R73). -/
def memoryReference (s : State) : Option Address :=
  if s.T = 0 then none
  else if s.T = 1 then some s.AR
  else if s.T = 2 then operandRef (decode s.IR)
  else executeRef (decode s.IR) s

/-- The state part of one micro-step: T0 and T1 are common, T2 and the execute states are the decoded
instruction's (R64, R65). The decode is a function of IR, held in no register (R15). -/
def timingState (s : State) : Host.Outcome State Fault Refusal :=
  if s.T = 0 then .next (addressState s)
  else if s.T = 1 then .next (fetchState s)
  else exec (decode s.IR) s

/-- `cycleStep`: one micro-step, with its trace entry; an error leaves everything as it was (R65, R66, R12). -/
def cycleStep (s : State) : Host.Outcome State Fault Refusal :=
  match timingState s with
  | .next s1 => .next (s1.record s.T (memoryReference s))
  | .fault f => .fault f
  | .refused r => .refused r

/-- The state part of the host's `step` (R104): NotAssembled before the first assemble, nothing on a halted
block, and one micro-step otherwise. -/
def microStep (s : State) : Host.Outcome State Fault Refusal :=
  if s.assembled = false then raise .notAssembled
  else if s.halted then .next s
  else cycleStep s

/-- A program of at least the cell at PC is loaded, and the block is at that cell's fetch: the word is stored
where the next T0 and T1 fetch from, and the flags and the length that a fetch needs are set (R24, R25, R67). -/
def placeProgramWord (s : State) (word : Word) : State :=
  { s with
    mem := s.mem.write s.PC word
    assembled := true
    halted := false
    T := 0
    PLEN := if s.PC.toNat < s.PLEN.toNat then s.PLEN else BitVec.ofNat 13 (s.PC.toNat + 1) }

/-- `placeProgramWord`, carried to the instruction's own first execute state: T0, T1 and T2 are done, without
trace entries. Where T2 raises OutOfRange, it is left to the next step. -/
def placeInstruction (s : State) (nbits w : Nat) : State :=
  let word := BitVec.ofNat 16 (w % 2 ^ nbits)
  let fetched := fetchState (addressState (placeProgramWord s word))
  match exec (decode word) fetched with
  | .next s1 => s1
  | .fault _ => fetched
  | .refused _ => fetched

end Sys2Proof.Machine
end

