-- ==== Sys2Proof/Machine/Step.lean ====
section
/-! DEFINITION. The machine's step, and placing an instruction for the step that follows. -/

namespace Sys2Proof.Machine

/-- One `step` of the block: at most one timing state (00_scope.md R3, 44_host_operations.md R104). -/
def step (s : State) : Host.Outcome State Fault Refusal := microStep s

/-- `s` with the instruction of `nbits` bits `w` in memory at PC and fetched, so that the very next step is
its execute state T3, or its T2 where that raises OutOfRange (notes/assumptions/8.md). -/
def State.withFetchWord (s : State) (nbits w : Nat) : State := placeInstruction s nbits w

end Sys2Proof.Machine
end

