-- ==== Sys2Proof/Machine/Assembler.lean ====
section
/-! DEFINITION. The assembler contract (30_encoding.md R55 to R63): from a source line to a word. -/

namespace Sys2Proof.Machine

/-- A token of a source line: its characters. -/
abbrev Token := List Char

/-- Spaces and tabs separate tokens (R56). -/
def isBlank (c : Char) : Bool := c == ' ' || c == '\t'

/-- Split a line into its tokens at runs of blanks, leading and trailing ones ignored (R56). `cur` is the
token being read. -/
def tokensFrom (cur : Token) : List Char → List Token
  | [] => if cur.isEmpty then [] else [cur]
  | c :: cs =>
    if isBlank c then (if cur.isEmpty then tokensFrom [] cs else cur :: tokensFrom [] cs)
    else tokensFrom (cur ++ [c]) cs

/-- The tokens of a line (R56). -/
def tokens (line : List Char) : List Token := tokensFrom [] line

/-- A letter without its case (R56). -/
def foldCase (c : Char) : Char := if 'a' ≤ c ∧ c ≤ 'z' then Char.ofNat (c.toNat - 32) else c

/-- The memory-reference mnemonics and their aliases (R59). -/
def mriMnemonics : List (String × (Bool → Address → Instr)) :=
  [("AND", .and), ("ADD", .add), ("LOAD", .load), ("LDA", .load), ("STORE", .store), ("STA", .store),
   ("BUN", .bun), ("BSA", .bsa), ("ISZ", .isz)]

/-- The register-reference mnemonics and the alias HLT (R59). -/
def rriMnemonics : List (String × Instr) :=
  [("CLA", .cla), ("CLE", .cle), ("CMA", .cma), ("CME", .cme), ("CIR", .cir), ("CIL", .cil), ("INC", .inc),
   ("SPA", .spa), ("SNA", .sna), ("SZA", .sza), ("SZE", .sze), ("HALT", .halt), ("HLT", .halt)]

/-- The entry of a mnemonic table that a token names, without regard to letter case (R56). -/
def lookupMnemonic {α : Type} (t : Token) : List (String × α) → Option α
  | [] => none
  | (name, v) :: rest => if t.map foldCase = name.toList then some v else lookupMnemonic t rest

/-- The value of a decimal digit (R57). -/
def decimalDigit (c : Char) : Option Nat := if '0' ≤ c ∧ c ≤ '9' then some (c.toNat - 48) else none

/-- The value of a hexadecimal digit, either case (R57). -/
def hexDigit (c : Char) : Option Nat :=
  match decimalDigit c with
  | some d => some d
  | none => if 'A' ≤ foldCase c ∧ foldCase c ≤ 'F' then some ((foldCase c).toNat - 55) else none

/-- The value of a run of digits in a radix, continuing from `acc`. -/
def digitsValue (digit : Char → Option Nat) (radix : Nat) (acc : Nat) : List Char → Option Nat
  | [] => some acc
  | c :: cs =>
    match digit c with
    | some d => digitsValue digit radix (acc * radix + d) cs
    | none => none

/-- The value of a token that is a `decimal` or a `hex` (R57, R58). -/
def numberValue : Token → Option Nat
  | [] => none
  | '0' :: 'x' :: c :: cs => digitsValue hexDigit 16 0 (c :: cs)
  | '0' :: 'X' :: c :: cs => digitsValue hexDigit 16 0 (c :: cs)
  | t => digitsValue decimalDigit 10 0 t

/-- The address an operand token names: its value must lie in `[0, 4095]` (R58). -/
def operandValue (t : Token) : Option Address :=
  match numberValue t with
  | some v => if v < 4096 then some (BitVec.ofNat 12 v) else none
  | none => none

/-- The instruction that a line's tokens name, if the line is well formed (R57, R61 conditions 1 to 7). -/
def parseTokens : List Token → Option Instr
  | [] => none
  | m :: rest =>
    match lookupMnemonic m mriMnemonics, lookupMnemonic m rriMnemonics with
    | some mk, _ =>
      match rest with
      | [operand] => (operandValue operand).map (mk false)
      | [operand, marker] => if marker.map foldCase = ['I'] then (operandValue operand).map (mk true) else none
      | _ => none
    | none, some i => if rest.isEmpty then some i else none
    | none, none => none

/-- `encode(line)`: a pure function of the line's text (R60); `none` is a SyntaxError of the line. -/
def encodeText (line : List Char) : Option Word := (parseTokens (tokens line)).map encode

/-- `encodeText` of a line given as a string. -/
def encodeLine (line : String) : Option Word := encodeText line.toList

/-- The words of the lines from line `k` on, or the number of the first bad line; line 4097 has no address
(R55, R61, R101). -/
def assembleFrom (k : Nat) : List String → Except Nat (List Word)
  | [] => .ok []
  | line :: rest =>
    if Config.memWords < k then .error k
    else
      match encodeLine line with
      | none => .error k
      | some w =>
        match assembleFrom (k + 1) rest with
        | .ok ws => .ok (w :: ws)
        | .error j => .error j

/-- The words of a source, line k first (R55). -/
def assembleLines (lines : List String) : Except Nat (List Word) := assembleFrom 1 lines

/-- The memory that holds `ws` at `k`, `k + 1`, … and the zero word elsewhere (R101). -/
def imageFrom (k : Nat) : List Word → Memory
  | [] => []
  | w :: ws => if w = Config.initialCell then imageFrom (k + 1) ws else (k, w) :: imageFrom (k + 1) ws

end Sys2Proof.Machine
end

