-- ==== Sys2Proof/Machine/HostOps.lean ====
section
/-! DEFINITION. The operations the host drives the block with (44_host_operations.md R99 to R107), and `reset()`
(70_reset_and_hazards.md R125). Each is one transaction: a state in, a state and an answer out. -/

namespace Sys2Proof.Machine

/-- What an operation hands back: `Ok` with its results, or `Err` with one error (R13). `refused` is the
model's own third case, for states that no operation reaches (R71). -/
inductive HostAnswer (α : Type) where
  | ok (result : α)
  | err (f : Fault)
  | refused (r : Refusal)
deriving DecidableEq, Repr

/-- The state after an operation, and its answer. -/
structure HostResult (α : Type) where
  state : State
  answer : HostAnswer α
deriving DecidableEq, Repr

/-- The results of `step` (R104). -/
structure StepReport where
  T : TimingState
  haltReached : Bool
  alreadyHalted : Bool
deriving DecidableEq, Repr

/-- `step()` (R104). -/
def hostStep (s : State) : HostResult StepReport :=
  if s.assembled = false then ⟨s, .err .notAssembled⟩
  else if s.halted then ⟨s, .ok ⟨s.T, true, true⟩⟩
  else
    match step s with
    | .next s' => ⟨s', .ok ⟨s'.T, s'.halted, false⟩⟩
    | .fault f => ⟨s, .err f⟩
    | .refused r => ⟨s, .refused r⟩

/-- The loop of `runInstruction`, `k` micro-steps done and at most `fuel` to come (R105). No instruction has
a ROM entry past T5, so a cycle that has not ended after six micro-steps would be without an entry. -/
def runInstructionFrom (fuel k : Nat) (s : State) : HostResult Nat :=
  match fuel with
  | 0 => ⟨s, .refused (.noRomEntry s.T.toNat)⟩
  | fuel + 1 =>
    match step s with
    | .next s' => if s'.halted ∨ s'.T = 0 then ⟨s', .ok (k + 1)⟩ else runInstructionFrom fuel (k + 1) s'
    | .fault f => ⟨s, .err f⟩
    | .refused r => ⟨s, .refused r⟩

/-- `runInstruction()`: step to the instruction boundary or Halt; the answer counts the micro-steps (R105). -/
def runInstruction (s : State) : HostResult Nat :=
  if s.assembled = false then ⟨s, .err .notAssembled⟩
  else if s.halted then ⟨s, .ok 0⟩
  else runInstructionFrom 6 0 s

/-- The loop of `runToHalt`, `k` micro-steps done and `left` allowed: the halted check comes before the
bound check (R106, R114). -/
def runToHaltFrom (left k : Nat) (s : State) : HostResult Nat :=
  if s.halted then ⟨s, .ok k⟩
  else
    match left with
    | 0 => ⟨s, .err .stepLimitExceeded⟩
    | left + 1 =>
      match step s with
      | .next s' => runToHaltFrom left (k + 1) s'
      | .fault f => ⟨s, .err f⟩
      | .refused r => ⟨s, .refused r⟩

/-- `runToHalt(N)` (R106). -/
def runToHalt (N : Nat) (s : State) : HostResult Nat :=
  if s.assembled = false then ⟨s, .err .notAssembled⟩ else runToHaltFrom N 0 s

/-- `memoryContents()`: the 4096 pairs in ascending address order (R103). -/
def memoryContents (s : State) : List (Nat × Word) := (List.range Config.memWords).map fun a => (a, s.mem.get a)

/-- `registerSnapshot()` (R103). -/
def registerSnapshot (s : State) : Snapshot := s.snapshot

/-- `trace()` (R103). -/
def traceEntries (s : State) : List TraceEntry := s.trace

/-- `reset()`: registers, T, halted and trace to their initial values; M, PLEN and assembled kept (R125). -/
def hostReset (s : State) : State :=
  { s with AC := 0, DR := 0, IR := 0, PC := 0, AR := 0, E := 0, T := 0, halted := false, trace := [] }

/-- The block just after a successful assemble of `ws`: memory cleared and loaded, registers fresh (R101). -/
def loadProgram (ws : List Word) (s : State) : State :=
  { hostReset s with mem := imageFrom 0 ws, PLEN := BitVec.ofNat 13 ws.length, assembled := true }

/-- What a successful assemble hands to the host: the memory image and the line-to-address map (R101). -/
structure Assembly where
  memoryImage : List (Nat × Word)
  lineAddressMap : List (Nat × Nat)
deriving DecidableEq, Repr

/-- `assemble(lines)`: validate every line, then commit everything or nothing (R101, R112). -/
def assemble (lines : List String) (s : State) : HostResult Assembly :=
  match assembleLines lines with
  | .error k => ⟨s, .err (.syntaxError k)⟩
  | .ok ws =>
    let s' := loadProgram ws s
    ⟨s', .ok ⟨memoryContents s', (List.range lines.length).map fun a => (a + 1, a)⟩⟩

/-- `writeMemory(a, w)`: one cell, `w` masked to 16 bits (R102). -/
def writeMemory (a w : Nat) (s : State) : HostResult Unit :=
  match memWrite s.mem a w with
  | .ok m => ⟨s.setMem m, .ok ()⟩
  | .error f => ⟨s, .err f⟩

/-- The operations of R99 with their arguments. -/
inductive HostOp where
  | assemble (lines : List String)
  | writeMemory (a w : Nat)
  | memoryContents
  | registerSnapshot
  | trace
  | step
  | runInstruction
  | runToHalt (maxSteps : Nat)
  | reset
deriving DecidableEq, Repr

/-- The state an operation leaves; operations do not overlap (R100), and the queries change nothing (R103). -/
def HostOp.after (op : HostOp) (s : State) : State :=
  match op with
  | .assemble lines => (Sys2Proof.Machine.assemble lines s).state
  | .writeMemory a w => (Sys2Proof.Machine.writeMemory a w s).state
  | .memoryContents | .registerSnapshot | .trace => s
  | .step => (hostStep s).state
  | .runInstruction => (Sys2Proof.Machine.runInstruction s).state
  | .runToHalt n => (Sys2Proof.Machine.runToHalt n s).state
  | .reset => hostReset s

end Sys2Proof.Machine
end

