-- ==== Sys2Proof/Safety.lean ====
section
/-! DEFINITION. What counts as a legal state and a reachable one (10_state.md R30). -/

namespace Sys2Proof.Machine

/-- The last timing state of an instruction: its terminal step (R71, R74). -/
def terminalState (i : Instr) : Nat := 2 + (romRows i).length

/-- The trace records the fetch of the word in IR: its last entry labelled T1 shows that word in IR (R30.5). -/
def State.fetchRecorded (s : State) : Prop :=
  ∃ before e after, s.trace = before ++ e :: after ∧ e.label = "T1" ∧ e.snap.IR = s.IR ∧
    ∀ x ∈ after, x.label ≠ "T1"

/-- The invariants of R30 (its points 1 to 5; 6 is a reading of T = 0, and 7 is in the types), with the two
facts that make them inductive: memory is in canonical form, and an execute state is one the decoded
instruction has. -/
structure State.Legal (s : State) : Prop where
  /-- R30.1. -/
  timing : s.T.toNat ≤ 5
  /-- R30.2. -/
  halted_T : s.halted = true → s.T = 0
  /-- R30.3. -/
  halted_assembled : s.halted = true → s.assembled = true
  /-- R30.4. -/
  length : s.PLEN.toNat ≤ 4096
  /-- R30.4. -/
  unassembled : s.assembled = false → s.PLEN = 0 ∧ s.trace = []
  /-- Nothing has run before the first assemble. -/
  unassembled_T : s.assembled = false → s.T = 0
  /-- R30.5. -/
  fetched : 2 ≤ s.T.toNat → s.fetchRecorded
  /-- No timing state lies past the terminal step of the instruction in IR (R22, R71). -/
  execute : 3 ≤ s.T.toNat → s.T.toNat ≤ terminalState (decode s.IR)
  /-- Memory is in canonical form. -/
  memory : s.mem.wf = true

/-- The states reachable from session start by the host's operations (R30, R100). -/
inductive Reachable : State → Prop where
  | start : Reachable State.reset
  | op (o : HostOp) (s : State) : Reachable s → Reachable (o.after s)

/-- The state `k` steps after `s`, stopping at the first error or refusal. -/
def stepsFrom : Nat → State → Host.Outcome State Fault Refusal
  | 0, s => .next s
  | k + 1, s =>
    match step s with
    | .next t => stepsFrom k t
    | .fault f => .fault f
    | .refused r => .refused r

/-- The block is assembled, not halted, and its next step executes timing state `t`. -/
def State.Running (s : State) (t : TimingState) : Prop :=
  s.assembled = true ∧ s.halted = false ∧ s.T = t

/-- The block is about to fetch an instruction of the program: T0 will not halt (R25, R67). -/
def State.AtFetch (s : State) : Prop := s.Running 0 ∧ s.PC.toNat < s.PLEN.toNat

end Sys2Proof.Machine
end

