-- ==== Sys2Proof/Certificates/Slice0/Obligations.lean ====
section
/-! DEFINITION. The statements about the model, from the numbered rules of spec/. The helpers say in the
rules' own terms what a statement compares the machine with. Where a rule rests on one of the spec's own choices
(92_eei_decisions.md D<n>, "OUR CHOICE") or on a deduction that it marks as derived, the docstring names it: such a
statement is about the spec's choice of machine, not about the repository behind it (notes/assumptions/14.md). -/

namespace Sys2Proof.Claims

open Sys2Proof.Machine

/-- `s1` with the trace entry of the step that led from `s` to it (10_state.md R27, R28; R65). -/
def recorded (s s1 : State) (ref : Option Address) : State :=
  { s1 with trace := s.trace ++
      [⟨"T" ++ toString s.T.toNat, ⟨s1.IR, s1.AC, s1.DR, s1.PC, s1.AR, s1.E, s1.T, s1.halted⟩, ref⟩] }

/-- The address a step references (the table of R73), read off the word in IR. -/
def referenced (s : State) : Option Address :=
  match s.T.toNat with
  | 0 => none
  | 1 => some s.AR
  | 2 => if opField s.IR ≠ 7 ∧ iBit s.IR = true then some (addrField s.IR) else none
  | 3 =>
    match decode s.IR with
    | .and _ _ | .add _ _ | .load _ _ | .isz _ _ | .store _ _ | .bsa _ _ => some s.AR
    | _ => none
  | 5 =>
    match decode s.IR with
    | .isz _ _ => some s.AR
    | _ => none
  | _ => none

/-- AR at the end of T2: the effective address of a memory-reference instruction, none where the indirect word
is no Address (R75), and bits 11:0 of any other word (R69). -/
def addressAfterT2 (i : Instr) (m : Memory) : Option Address :=
  match i with
  | .and ind a | .add ind a | .load ind a | .store ind a | .bun ind a | .bsa ind a | .isz ind a =>
    if ind then (if (m.read a).toNat ≤ 4095 then some ((m.read a).setWidth 12) else none) else some a
  | i => some (addrField (encode i))

/-- The micro-steps of one instruction, T0 to its terminal step (the table of R74). -/
def microSteps : Instr → Nat
  | .and _ _ | .add _ _ | .load _ _ | .bsa _ _ => 5
  | .isz _ _ => 6
  | _ => 4

/-- What the execute states of an instruction do together, from the state T2 leaves, where AR is the effective
address (R76 to R98, as whole instructions). -/
def wholeEffect (i : Instr) (s : State) : State :=
  let v := s.mem.read s.AR
  match i with
  | .and _ _ => { s with DR := v, AC := s.AC &&& v }
  | .add _ _ => { s with DR := v, AC := s.AC + v, E := if 65536 ≤ s.AC.toNat + v.toNat then 1 else 0 }
  | .load _ _ => { s with DR := v, AC := v }
  | .store _ _ => { s with mem := s.mem.write s.AR s.AC }
  | .bun _ _ => { s with PC := s.AR }
  | .bsa _ _ => { s with mem := s.mem.write s.AR (s.PC.setWidth 16), AR := s.AR + 1, PC := s.AR + 1 }
  | .isz _ _ => { s with DR := v + 1, mem := s.mem.write s.AR (v + 1), PC := if v = 0xFFFF then s.PC + 1 else s.PC }
  | .cla => { s with AC := 0 }
  | .cle => { s with E := 0 }
  | .cma => { s with AC := ~~~s.AC }
  | .cme => { s with E := ~~~s.E }
  | .cir => { s with AC := (s.AC >>> 1) ||| (s.E.setWidth 16 <<< 15), E := s.AC.setWidth 1 }
  | .cil => { s with AC := (s.AC <<< 1) ||| s.E.setWidth 16, E := (s.AC >>> 15).setWidth 1 }
  | .inc => { s with AC := s.AC + 1 }
  | .spa => { s with PC := if s.AC.toNat < 0x8000 then s.PC + 1 else s.PC }
  | .sna => { s with PC := if 0x8000 ≤ s.AC.toNat then s.PC + 1 else s.PC }
  | .sza => { s with PC := if s.AC = 0 then s.PC + 1 else s.PC }
  | .sze => { s with PC := if s.E = 0 then s.PC + 1 else s.PC }
  | .halt => { s with halted := true }
  | .io _ | .nop _ => s

/-- The number of bits set in a 12-bit field. -/
def bitsSet (b : Address) : Nat := (List.range 12).countP fun k => b.getLsbD k

/-- The part that R76 to R82 have in common: the two encodings, the assembly text of each mnemonic, in
either letter case, with its optional marker, OutOfRange at T2 as the only exception, and the number of micro-steps. -/
structure MemoryReferenceShape (mk : Bool → Address → Instr) (base : Word) (names : List String) (steps : Nat) :
    Prop where
  encoding : ∀ a : Address, encode (mk false a) = base ||| a.setWidth 16 ∧
    encode (mk true a) = 0x8000 ||| base ||| a.setWidth 16
  decoding : ∀ ind a, decode (encode (mk ind a)) = mk ind a
  assembly : ∀ n ∈ names, ∀ (text token : List Char) (a : Address), text.map foldCase = n.toList →
    operandValue token = some a →
    encodeText (text ++ ' ' :: token) = some (encode (mk false a)) ∧
    encodeText (text ++ ' ' :: (token ++ [' ', 'I'])) = some (encode (mk true a))
  exceptions : ∀ ind a s f, exec (mk ind a) s = .fault f →
    s.T = 2 ∧ ind = true ∧ 4095 < (s.mem.read a).toNat ∧ f = .outOfRange (s.mem.read a).toNat
  stepCount : ∀ ind a s, s.AtFetch → s.mem.read s.PC = encode (mk ind a) →
    (ind = true → (s.mem.read a).toNat ≤ 4095) → ∃ t, runInstruction s = ⟨t, .ok steps⟩

/-- The part that R85 to R96 have in common: the one word, its assembly text, no exception, and four
micro-steps. -/
structure RegisterReferenceShape (i : Instr) (word : Word) (names : List String) : Prop where
  encoding : encode i = word ∧ decode word = i
  assembly : ∀ n ∈ names, ∀ text : List Char, text.map foldCase = n.toList → encodeText text = some word
  exceptions : ∀ s f, exec i s ≠ .fault f
  stepCount : ∀ s, s.AtFetch → s.mem.read s.PC = word → ∃ t, runInstruction s = ⟨t, .ok 4⟩

/-- The memory-reference variants with their constructors. -/
def memoryReferences : List (Bool → Address → Instr) :=
  [.and, .add, .load, .store, .bun, .bsa, .isz]

/-- The instructions that read AC (R16). -/
def readsAC : Instr → Bool
  | .and _ _ | .add _ _ | .store _ _ | .cma | .cir | .cil | .inc | .spa | .sna | .sza => true
  | _ => false

/-- The instructions that read E (R17). -/
def readsE : Instr → Bool
  | .cme | .cir | .cil | .sze => true
  | _ => false

/-- An outcome with its next state seen through `view`. -/
def seen {α : Type} (view : State → α) : Host.Outcome State Fault Refusal → Host.Outcome α Fault Refusal
  | .next t => .next (view t)
  | .fault f => .fault f
  | .refused r => .refused r

/-- The 17-bit quantity `(E, AC)` (R89). -/
def flagAndAC (s : State) : Nat := s.E.toNat * 65536 + s.AC.toNat

/-- Run one instruction's execute state T3 again from wherever it left the registers. -/
def again (i : Instr) (s : State) : State :=
  match exec i { s with T := 3 } with
  | .next t => t
  | _ => s

end Sys2Proof.Claims

open Sys2Proof Sys2Proof.Machine Sys2Proof.Claims

/-! ### Encoding -/

/-- Decoding the word of a well-formed instruction gives the instruction back, with every operand at every
value (R52, R60; the fields and opcodes are the spec's choices D1, D2, D3). -/
def Obligations.DecodeOfEncodeIsIdentity : Prop :=
  ∀ i : Instr, i.WellFormed = true → decode (encode i) = i

/-- Every word is the word of the instruction it decodes to, which is well formed: the decoder is total and
drops no bit (R47, R52, R54; the spec's choices D1, D2, D3, D5). -/
def Obligations.EncodeOfDecodeIsIdentity : Prop :=
  ∀ w : Word, (decode w).WellFormed = true ∧ encode (decode w) = w

/-- The opcode map of R53: by the top four bits, and the register-reference words (the spec's choices D1, D3, D5,
from general knowledge). -/
def Obligations.DecoderFollowsOpcodeMap : Prop :=
  (∀ a : Address,
    decode (a.setWidth 16) = .and false a ∧ decode (0x1000 ||| a.setWidth 16) = .add false a ∧
    decode (0x2000 ||| a.setWidth 16) = .load false a ∧ decode (0x3000 ||| a.setWidth 16) = .store false a ∧
    decode (0x4000 ||| a.setWidth 16) = .bun false a ∧ decode (0x5000 ||| a.setWidth 16) = .bsa false a ∧
    decode (0x6000 ||| a.setWidth 16) = .isz false a ∧ decode (0x8000 ||| a.setWidth 16) = .and true a ∧
    decode (0x9000 ||| a.setWidth 16) = .add true a ∧ decode (0xA000 ||| a.setWidth 16) = .load true a ∧
    decode (0xB000 ||| a.setWidth 16) = .store true a ∧ decode (0xC000 ||| a.setWidth 16) = .bun true a ∧
    decode (0xD000 ||| a.setWidth 16) = .bsa true a ∧ decode (0xE000 ||| a.setWidth 16) = .isz true a ∧
    decode (0xF000 ||| a.setWidth 16) = .io a) ∧
  (decode 0x7800 = .cla ∧ decode 0x7400 = .cle ∧ decode 0x7200 = .cma ∧ decode 0x7100 = .cme ∧
    decode 0x7080 = .cir ∧ decode 0x7040 = .cil ∧ decode 0x7020 = .inc ∧ decode 0x7010 = .spa ∧
    decode 0x7008 = .sna ∧ decode 0x7004 = .sza ∧ decode 0x7002 = .sze ∧ decode 0x7001 = .halt) ∧
  (∀ a : Address, bitsSet a ≠ 1 → decode (0x7000 ||| a.setWidth 16) = .nop a)

/-- A few of the words of 95_test_vectors.md 2.1, which the spec derives from its rules. -/
def Obligations.SpecWordsDecode : Prop :=
  decode 0x8FFF = .and true 0xFFF ∧ decode 0x1234 = .add false 0x234 ∧ decode 0xD123 = .bsa true 0x123 ∧
  decode 0x7080 = .cir ∧ decode 0x7801 = .nop 0x801 ∧ decode 0xF800 = .io 0x800

/-- R63: the word of every accepted line decodes to the line's operation, marker and operand (the
spec derives it from R60 and R52; the grammar is its choice D15). -/
def Obligations.AssembledLineDecodesToItsInstruction : Prop :=
  ∀ (line : List Char) (w : Word), encodeText line = some w →
    (∃ m mk operand a, tokens line = [m, operand] ∧ lookupMnemonic m mriMnemonics = some mk ∧
      operandValue operand = some a ∧ decode w = mk false a) ∨
    (∃ m mk operand marker a, tokens line = [m, operand, marker] ∧ lookupMnemonic m mriMnemonics = some mk ∧
      (marker = ['I'] ∨ marker = ['i']) ∧ operandValue operand = some a ∧ decode w = mk true a) ∨
    (∃ m i, tokens line = [m] ∧ lookupMnemonic m rriMnemonics = some i ∧ decode w = i)

/-- R61: the seven ways a line is bad, and the line that a bad source is reported at (the spec's choices D15,
D16). -/
def Obligations.SyntaxErrorNamesFirstBadLine : Prop :=
  (∀ line : List Char, encodeText line = none ↔
    match tokens line with
    | [] => True
    | m :: rest =>
      (lookupMnemonic m mriMnemonics = none ∧ lookupMnemonic m rriMnemonics = none) ∨
      ((lookupMnemonic m mriMnemonics).isSome = true ∧
        (rest = [] ∨ (∃ operand more, rest = operand :: more ∧ operandValue operand = none) ∨
          (∃ operand marker more, rest = operand :: marker :: more ∧ marker ≠ ['I'] ∧ marker ≠ ['i']) ∨
          2 < rest.length)) ∨
      ((lookupMnemonic m rriMnemonics).isSome = true ∧ rest ≠ [])) ∧
  (∀ (lines : List String) (k : Nat), assembleLines lines = .error k ↔
    ((∀ j (h : j < lines.length), j + 1 < k → (encodeLine lines[j]).isSome = true) ∧
      ((∃ h : k - 1 < lines.length, 1 ≤ k ∧ k ≤ 4096 ∧ encodeLine lines[k - 1] = none) ∨
        (k = 4097 ∧ 4096 < lines.length))))

/-! ### Memory -/

/-- The two primitives (R34, R35), with what a read after a write gives. That memory is in canonical form, before and
after the write, is the model's own choice and in neither rule (notes/assumptions/3.md, DESIGN CHOICE). -/
def Obligations.MemoryPrimitives : Prop :=
  ∀ (m : Memory), m.wf = true → ∀ a v : Nat,
    (a ≤ 4095 → memRead m a = .ok (m.read (BitVec.ofNat 12 a)) ∧
      ∃ n, memWrite m a v = .ok n ∧ n.wf = true ∧ memRead n a = .ok (BitVec.ofNat 16 (v % 2 ^ 16)) ∧
        ∀ b, b ≠ a → memRead n b = memRead m b) ∧
    (4095 < a → memRead m a = .error (.outOfRange a) ∧ memWrite m a v = .error (.outOfRange a))

/-! ### The cycle -/

/-- R67: T0, with the halt on exhaustion, which the spec puts here by its choice D10. -/
def Obligations.AddressStateLoadsArOrHalts : Prop :=
  ∀ s : State, s.Running 0 →
    (s.PLEN.toNat ≤ s.PC.toNat → step s = .next (recorded s { s with halted := true, T := 0 } none)) ∧
    (s.PC.toNat < s.PLEN.toNat → step s = .next (recorded s { s with AR := s.PC, T := 1 } none))

/-- R68: T1. -/
def Obligations.FetchStateLoadsIrAndAdvancesPc : Prop :=
  ∀ s : State, s.Running 1 →
    step s = .next (recorded s
      { s with IR := s.mem.read s.AR, PC := BitVec.ofNat 12 ((s.PC.toNat + 1) % 4096), T := 2 } (some s.AR))

/-- R69: T2, from the word in IR. Bit 15 is the indirect bit of a memory-reference word only, and an
error leaves everything as it was (the spec's choices D6, D13). -/
def Obligations.DecodeStateResolvesAddress : Prop :=
  ∀ s : State, s.Running 2 →
    (opField s.IR ≠ 7 ∧ iBit s.IR = true →
      ((s.mem.read (addrField s.IR)).toNat ≤ 4095 →
        step s = .next (recorded s
          { s with AR := (s.mem.read (addrField s.IR)).setWidth 12, T := 3 } (some (addrField s.IR)))) ∧
      (4095 < (s.mem.read (addrField s.IR)).toNat →
        hostStep s = ⟨s, .err (.outOfRange (s.mem.read (addrField s.IR)).toNat)⟩)) ∧
    (¬ (opField s.IR ≠ 7 ∧ iBit s.IR = true) →
      step s = .next (recorded s { s with AR := addrField s.IR, T := 3 } none))

/-- From T2 on, a step runs the instruction that the word in IR decodes to, and adds its trace entry (R65, R70);
the three steps from a fetch are those two and T2 of the word at PC. -/
def Obligations.StepRunsDecodedInstruction : Prop :=
  (∀ s : State, s.assembled = true → s.halted = false → 2 ≤ s.T.toNat →
    step s = match exec (decode s.IR) s with
      | .next t => .next (recorded s t (memoryReference s))
      | .fault f => .fault f
      | .refused r => .refused r) ∧
  (∀ s : State, s.AtFetch →
    ∃ t, stepsFrom 2 s = .next t ∧ t.Running 2 ∧
      step t = match exec (decode (s.mem.read s.PC)) t with
        | .next u => .next (recorded t u (memoryReference t))
        | .fault f => .fault f
        | .refused r => .refused r)

/-- The Fetch/PC invariant (R67, R68): after T0 and T1, IR holds the word at the old PC, and PC has advanced by
one modulo 4096; nothing else but AR, T and the trace has changed (the spec derives it from R67 and R68). -/
def Obligations.FetchAdvancesPcByOne : Prop :=
  ∀ s : State, s.AtFetch →
    ∃ t, stepsFrom 2 s = .next t ∧
      t = { s with IR := s.mem.read s.PC, PC := BitVec.ofNat 12 ((s.PC.toNat + 1) % 4096), AR := s.PC, T := 2,
                   trace := t.trace } ∧
      t.trace.map TraceEntry.label = s.trace.map TraceEntry.label ++ ["T0", "T1"]

/-- R28, R73: a step of a block that is not halted appends one entry: the label of the executed state, the
registers after the step, and the address referenced (the spec's choice D22). -/
def Obligations.EachStepAppendsOneTraceEntry : Prop :=
  ∀ s t : State, step s = .next t → s.halted = false →
    t.trace = s.trace ++
      [⟨"T" ++ toString s.T.toNat, ⟨t.IR, t.AC, t.DR, t.PC, t.AR, t.E, t.T, t.halted⟩, referenced s⟩]

/-- R104: what `step` answers in each case, and that an error or a halted block leaves the state as it is
(the spec's choices D19, D32). -/
def Obligations.HostStepAnswers : Prop :=
  ∀ s : State,
    (s.assembled = false → hostStep s = ⟨s, .err .notAssembled⟩) ∧
    (s.assembled = true → s.halted = true → hostStep s = ⟨s, .ok ⟨s.T, true, true⟩⟩ ∧ step s = .next s) ∧
    (s.assembled = true → s.halted = false →
      (∀ t, cycleStep s = .next t → hostStep s = ⟨t, .ok ⟨t.T, t.halted, false⟩⟩) ∧
      (∀ f, cycleStep s = .fault f → hostStep s = ⟨s, .err f⟩))

/-- R110: NotAssembled is raised by the three control operations before an assemble, and by no other
operation (the spec's choice D18). -/
def Obligations.NotAssembledOnlyByControlOperations : Prop :=
  (∀ s : State, s.assembled = false →
    hostStep s = ⟨s, .err .notAssembled⟩ ∧ runInstruction s = ⟨s, .err .notAssembled⟩ ∧
    ∀ N, runToHalt N s = ⟨s, .err .notAssembled⟩) ∧
  (∀ s : State, s.assembled = true →
    (hostStep s).answer ≠ .err .notAssembled ∧ (runInstruction s).answer ≠ .err .notAssembled ∧
    ∀ N, (runToHalt N s).answer ≠ .err .notAssembled) ∧
  (∀ (s : State) a w, (writeMemory a w s).answer ≠ .err .notAssembled) ∧
  (∀ (s : State) lines, (assemble lines s).answer ≠ .err .notAssembled)

/-- R36, R113: on an assembled block a step raises nothing but OutOfRange, and that only in T2 of a
memory-reference word with I = 1 whose indirect word is no Address (the spec derives both). -/
def Obligations.OnlyIndirectOperandRaises : Prop :=
  ∀ (s : State) (f : Fault), s.assembled = true → step s = .fault f →
    s.T = 2 ∧ opField s.IR ≠ 7 ∧ iBit s.IR = true ∧ 4095 < (s.mem.read (addrField s.IR)).toNat ∧
    f = .outOfRange (s.mem.read (addrField s.IR)).toNat

/-- R109: the two causes of OutOfRange, and that the first leaves the block where it was: a retry raises the
same error, or succeeds once the host has put an Address into the pointer cell (the spec's choices D13, D30). -/
def Obligations.OutOfRangeIsResumable : Prop :=
  (∀ (s : State) (a : Nat), s.assembled = true → (hostStep s).answer = .err (.outOfRange a) →
    (hostStep s).state = s ∧ s.T = 2 ∧ opField s.IR ≠ 7 ∧ iBit s.IR = true ∧
    a = (s.mem.read (addrField s.IR)).toNat ∧ 4095 < a ∧
    hostStep (hostStep s).state = hostStep s ∧
    ∀ v : Nat, v ≤ 4095 → s.mem.wf = true →
      ∃ t, step (writeMemory (addrField s.IR).toNat v s).state = .next t ∧ t.AR = BitVec.ofNat 12 v ∧ t.T = 3) ∧
  (∀ (s : State) (a w : Nat), 4095 < a → writeMemory a w s = ⟨s, .err (.outOfRange a)⟩)

/-! ### Instructions -/

/-- R75, for AND, ADD, LOAD, STORE, BUN, BSA and ISZ: T2 completes with the effective address in AR, direct and
indirect; OutOfRange at T2 is the only exception; the I bit changes neither the execute states nor the number of
micro-steps that `runInstruction` counts from a fetch; and at T3 the common states have left the next address in PC,
the word in IR and the effective address in AR. -/
def Obligations.MemoryReferenceOperandForms : Prop :=
  ∀ mk ∈ memoryReferences,
    (∃ k, ∀ (ind : Bool) (a : Address) (s : State), s.AtFetch → s.mem.read s.PC = encode (mk ind a) →
      addressAfterT2 (mk ind a) s.mem ≠ none → (runInstruction s).answer = .ok k) ∧
    ∀ (a : Address) (s : State),
      (s.T = 2 →
        exec (mk false a) s = .next { s with AR := a, T := 3 } ∧
        ((s.mem.read a).toNat ≤ 4095 →
          exec (mk true a) s = .next { s with AR := (s.mem.read a).setWidth 12, T := 3 }) ∧
        (4095 < (s.mem.read a).toNat → exec (mk true a) s = .fault (.outOfRange (s.mem.read a).toNat))) ∧
      (∀ ind f, exec (mk ind a) s = .fault f →
        s.T = 2 ∧ ind = true ∧ 4095 < (s.mem.read a).toNat ∧ f = .outOfRange (s.mem.read a).toNat) ∧
      (s.T ≠ 2 → exec (mk true a) s = exec (mk false a) s) ∧
      (∀ ind ea, s.AtFetch → s.mem.read s.PC = encode (mk ind a) → addressAfterT2 (mk ind a) s.mem = some ea →
        ∃ t, stepsFrom 3 s = .next t ∧
          t = { s with IR := encode (mk ind a), PC := BitVec.ofNat 12 ((s.PC.toNat + 1) % 4096), AR := ea, T := 3,
                       trace := t.trace })

/-- R69, R84, R97, R98: T2 of every other instruction loads AR with bits 11:0 of its word, with no indirect
read (the spec's choices D4, D5, D6). -/
def Obligations.OtherInstructionsLoadFieldAtT2 : Prop :=
  ∀ i : Instr, (opField (encode i) = 7) → ∀ s : State, s.T = 2 →
    exec i s = .next { s with AR := addrField (encode i), T := 3 }

/-- R76 (the spec's choices D1, D7, from general knowledge): AND. -/
def Obligations.AndRule : Prop :=
  MemoryReferenceShape .and 0x0000 ["AND"] 5 ∧
  ∀ ind a (s : State),
    (s.T = 3 → exec (.and ind a) s = .next { s with DR := s.mem.read s.AR, T := 4 }) ∧
    (s.T = 4 → exec (.and ind a) s = .next { s with AC := s.AC &&& s.DR, T := 0 })

/-- R77 (the spec's choices D7, D14, from general knowledge): ADD, where E is 1 when `AC + DR ≥ 65536` and 0
otherwise. -/
def Obligations.AddRule : Prop :=
  MemoryReferenceShape .add 0x1000 ["ADD"] 5 ∧
  ∀ ind a (s : State),
    (s.T = 3 → exec (.add ind a) s = .next { s with DR := s.mem.read s.AR, T := 4 }) ∧
    (s.T = 4 → exec (.add ind a) s = .next
      { s with AC := s.AC + s.DR, E := if 65536 ≤ s.AC.toNat + s.DR.toNat then 1 else 0, T := 0 })

/-- R78 (the spec's choices D1, D7): LOAD. -/
def Obligations.LoadRule : Prop :=
  MemoryReferenceShape .load 0x2000 ["LOAD", "LDA"] 5 ∧
  ∀ ind a (s : State),
    (s.T = 3 → exec (.load ind a) s = .next { s with DR := s.mem.read s.AR, T := 4 }) ∧
    (s.T = 4 → exec (.load ind a) s = .next { s with AC := s.DR, T := 0 })

/-- R79 (the spec's choices D1, D7): STORE lands at AR and nowhere else; AC, E and PLEN are unchanged. -/
def Obligations.StoreRule : Prop :=
  MemoryReferenceShape .store 0x3000 ["STORE", "STA"] 4 ∧
  ∀ ind a (s : State), s.mem.wf = true → s.T = 3 →
    ∃ m, exec (.store ind a) s = .next { s with mem := m, T := 0 } ∧ m.read s.AR = s.AC ∧
      ∀ b, b ≠ s.AR → m.read b = s.mem.read b

/-- R80 (the spec's choices D1, D7, from general knowledge): BUN. -/
def Obligations.BunRule : Prop :=
  MemoryReferenceShape .bun 0x4000 ["BUN"] 4 ∧
  ∀ ind a (s : State), s.T = 3 → exec (.bun ind a) s = .next { s with PC := s.AR, T := 0 }

/-- R81 (the spec's choices D1, D7, D8, D12, D36, from general knowledge): BSA, where both micro-operations of T3
read the pre-step AR, and AR wraps from 4095 to 0. -/
def Obligations.BsaRule : Prop :=
  MemoryReferenceShape .bsa 0x5000 ["BSA"] 5 ∧
  ∀ ind a (s : State),
    (s.mem.wf = true → s.T = 3 →
      ∃ m, exec (.bsa ind a) s =
          .next { s with mem := m, AR := BitVec.ofNat 12 ((s.AR.toNat + 1) % 4096), T := 4 } ∧
        (m.read s.AR).toNat = s.PC.toNat ∧ ∀ b, b ≠ s.AR → m.read b = s.mem.read b) ∧
    (s.T = 4 → exec (.bsa ind a) s = .next { s with PC := s.AR, T := 0 })

/-- R82 (the spec's choices D1, D7, D14, from general knowledge): ISZ, where T5 stores the DR that T4 produced and
skips where it is zero. -/
def Obligations.IszRule : Prop :=
  MemoryReferenceShape .isz 0x6000 ["ISZ"] 6 ∧
  ∀ ind a (s : State),
    (s.T = 3 → exec (.isz ind a) s = .next { s with DR := s.mem.read s.AR, T := 4 }) ∧
    (s.T = 4 → exec (.isz ind a) s = .next { s with DR := s.DR + 1, T := 5 }) ∧
    (s.mem.wf = true → s.T = 5 →
      ∃ m, exec (.isz ind a) s = .next { s with mem := m, PC := if s.DR = 0 then s.PC + 1 else s.PC, T := 0 } ∧
        m.read s.AR = s.DR ∧ ∀ b, b ≠ s.AR → m.read b = s.mem.read b)

/-- R85, R86, R87, R88, R91 (the spec's choices D1, D14, from general knowledge): CLA, CLE, CMA, CME, INC, with R87's
corner case: CMA followed by INC forms the two's complement. -/
def Obligations.ClearComplementIncrementRules : Prop :=
  (RegisterReferenceShape .cla 0x7800 ["CLA"] ∧
    ∀ s : State, s.T = 3 → exec .cla s = .next { s with AC := 0, T := 0 }) ∧
  (RegisterReferenceShape .cle 0x7400 ["CLE"] ∧
    ∀ s : State, s.T = 3 → exec .cle s = .next { s with E := 0, T := 0 }) ∧
  (RegisterReferenceShape .cma 0x7200 ["CMA"] ∧
    (∀ s : State, s.T = 3 → exec .cma s = .next { s with AC := ~~~s.AC, T := 0 }) ∧
    ∀ s : State, (again .inc (again .cma s)).AC = -s.AC) ∧
  (RegisterReferenceShape .cme 0x7100 ["CME"] ∧
    ∀ s : State, s.T = 3 → exec .cme s = .next { s with E := ~~~s.E, T := 0 }) ∧
  (RegisterReferenceShape .inc 0x7020 ["INC"] ∧
    ∀ s : State, s.T = 3 → exec .inc s = .next { s with AC := BitVec.ofNat 16 ((s.AC.toNat + 1) % 65536), T := 0 })

/-- R89, R90 (the spec's choices D1, D14, from general knowledge): CIR and CIL rotate the 17-bit quantity `(E, AC)`
by one; seventeen turns restore it. -/
def Obligations.CirculateRules : Prop :=
  (RegisterReferenceShape .cir 0x7080 ["CIR"] ∧
    (∀ s : State, s.T = 3 →
      ∃ t, exec .cir s = .next t ∧
        t = { s with AC := BitVec.ofNat 16 (s.E.toNat * 0x8000 + s.AC.toNat / 2),
                     E := BitVec.ofNat 1 (s.AC.toNat % 2), T := 0 } ∧
        flagAndAC t = flagAndAC s / 2 + flagAndAC s % 2 * 65536) ∧
    ∀ s : State, ((again .cir)^[17] s).AC = s.AC ∧ ((again .cir)^[17] s).E = s.E) ∧
  (RegisterReferenceShape .cil 0x7040 ["CIL"] ∧
    (∀ s : State, s.T = 3 →
      ∃ t, exec .cil s = .next t ∧
        t = { s with AC := BitVec.ofNat 16 (s.AC.toNat * 2 % 65536 + s.E.toNat),
                     E := BitVec.ofNat 1 (s.AC.toNat / 0x8000), T := 0 } ∧
        flagAndAC t = flagAndAC s * 2 % 131072 + flagAndAC s / 65536) ∧
    ∀ s : State, ((again .cil)^[17] s).AC = s.AC ∧ ((again .cil)^[17] s).E = s.E)

/-- R92 to R95 (the spec's choices D1, D14, from general knowledge): each of SPA, SNA, SZA, SZE adds
one to PC, modulo 4096, exactly where its condition holds. -/
def Obligations.SkipRules : Prop :=
  (RegisterReferenceShape .spa 0x7010 ["SPA"] ∧
    ∀ s : State, s.T = 3 →
      exec .spa s = .next { s with PC := if s.AC.toNat < 0x8000 then s.PC + 1 else s.PC, T := 0 }) ∧
  (RegisterReferenceShape .sna 0x7008 ["SNA"] ∧
    ∀ s : State, s.T = 3 →
      exec .sna s = .next { s with PC := if 0x8000 ≤ s.AC.toNat then s.PC + 1 else s.PC, T := 0 }) ∧
  (RegisterReferenceShape .sza 0x7004 ["SZA"] ∧
    ∀ s : State, s.T = 3 → exec .sza s = .next { s with PC := if s.AC = 0 then s.PC + 1 else s.PC, T := 0 }) ∧
  (RegisterReferenceShape .sze 0x7002 ["SZE"] ∧
    ∀ s : State, s.T = 3 → exec .sze s = .next { s with PC := if s.E = 0 then s.PC + 1 else s.PC, T := 0 })

/-- R96 (the spec's choices D1, D11): HALT enters Halt at its T3, its step reports it, and every later step is a
no-operation. -/
def Obligations.HaltRule : Prop :=
  RegisterReferenceShape .halt 0x7001 ["HALT", "HLT"] ∧
  (∀ s : State, s.T = 3 → exec .halt s = .next { s with halted := true, T := 0 }) ∧
  (∀ s : State, s.Running 3 → s.IR = 0x7001 →
    hostStep s = ⟨recorded s { s with halted := true, T := 0 } none, .ok ⟨0, true, false⟩⟩) ∧
  (∀ s : State, s.AtFetch → s.mem.read s.PC = 0x7001 →
    ∃ t, runInstruction s = ⟨t, .ok 4⟩ ∧
      t = { s with IR := 0x7001, PC := s.PC + 1, AR := 0x001, halted := true, T := 0, trace := t.trace } ∧
      t.trace.map TraceEntry.label = s.trace.map TraceEntry.label ++ ["T0", "T1", "T2", "T3"] ∧
      hostStep t = ⟨t, .ok ⟨0, true, true⟩⟩)

/-- R97 (the spec's choice D4): every word of the I/O class is a four-step no-operation, and
no line assembles to one. -/
def Obligations.IoRule : Prop :=
  ∀ b : Address,
    decode (0xF000 ||| b.setWidth 16) = .io b ∧
    (∀ line, encodeText line ≠ some (0xF000 ||| b.setWidth 16)) ∧
    (∀ (s : State) f, exec (.io b) s ≠ .fault f) ∧
    (∀ s : State, s.T = 3 → exec (.io b) s = .next { s with T := 0 }) ∧
    (∀ s : State, s.AtFetch → s.mem.read s.PC = 0xF000 ||| b.setWidth 16 →
      ∃ t, runInstruction s = ⟨t, .ok 4⟩ ∧
        t = { s with IR := 0xF000 ||| b.setWidth 16, PC := s.PC + 1, AR := b, trace := t.trace })

/-- R98 (the spec's choice D5): a word `0x7000 | b` whose `b` does not have exactly one bit set is a
four-step no-operation, and no line assembles to one. -/
def Obligations.NopRule : Prop :=
  ∀ b : Address,
    (decode (0x7000 ||| b.setWidth 16) = .nop b ↔ bitsSet b ≠ 1) ∧
    (bitsSet b ≠ 1 → ∀ line, encodeText line ≠ some (0x7000 ||| b.setWidth 16)) ∧
    (∀ (s : State) f, exec (.nop b) s ≠ .fault f) ∧
    (∀ s : State, s.T = 3 → exec (.nop b) s = .next { s with T := 0 }) ∧
    (bitsSet b ≠ 1 → ∀ s : State, s.AtFetch → s.mem.read s.PC = 0x7000 ||| b.setWidth 16 →
      ∃ t, runInstruction s = ⟨t, .ok 4⟩ ∧
        t = { s with IR := 0x7000 ||| b.setWidth 16, PC := s.PC + 1, AR := b, trace := t.trace })

/-! ### Whole instructions -/

/-- The micro-steps of one instruction together are its effect as a whole instruction (R64, R75 to R98): from
any fetch whose operand is in range, `runInstruction` retires it in its fixed number of steps (the spec's choices
D1, D7, D14). -/
def Obligations.InstructionCycleRefinesWholeInstruction : Prop :=
  ∀ (s : State) (ea : Address), s.AtFetch →
    addressAfterT2 (decode (s.mem.read s.PC)) s.mem = some ea →
    ∃ t, runInstruction s = ⟨t, .ok (microSteps (decode (s.mem.read s.PC)))⟩ ∧
      t = { wholeEffect (decode (s.mem.read s.PC)) { s with IR := s.mem.read s.PC, PC := s.PC + 1, AR := ea } with
            T := 0, trace := t.trace } ∧
      t.trace.map TraceEntry.label = s.trace.map TraceEntry.label ++
        ["T0", "T1", "T2", "T3", "T4", "T5"].take (microSteps (decode (s.mem.read s.PC)))

/-- R74 (which the spec derives from its ROM, D7): the step counts, which depend on the variant alone;
a T0 halt takes one step, and a T2 that raises takes none. -/
def Obligations.MicroStepCountsAreFixed : Prop :=
  ∀ s : State,
    (s.AtFetch → addressAfterT2 (decode (s.mem.read s.PC)) s.mem ≠ none →
      (runInstruction s).answer = .ok (microSteps (decode (s.mem.read s.PC)))) ∧
    (s.Running 0 → s.PLEN.toNat ≤ s.PC.toNat →
      (runInstruction s).answer = .ok 1 ∧ (runInstruction s).state.IR = s.IR) ∧
    (s.AtFetch → addressAfterT2 (decode (s.mem.read s.PC)) s.mem = none →
      stepsFrom 2 s = .next (runInstruction s).state ∧
      (runInstruction s).answer =
        .err (.outOfRange (s.mem.read (addrField (s.mem.read s.PC))).toNat))

/-! ### Frames -/

/-- The frame of every form that stores nothing: all of memory and every register but the ones the rules name
(R16 to R21, R26, R72; the spec's choices D1, D7, D14). -/
def Obligations.NonStoringInstructionsFrame : Prop :=
  ∀ (i : Instr) (s t : State), exec i s = .next t →
    (∀ ind a, i ≠ .store ind a ∧ i ≠ .bsa ind a ∧ i ≠ .isz ind a) →
    (∀ a, t.mem.read a = s.mem.read a) ∧
    t.IR = s.IR ∧ t.assembled = s.assembled ∧ t.PLEN = s.PLEN ∧ t.trace = s.trace ∧
    (s.T ≠ 2 → t.AR = s.AR) ∧
    ((∀ ind a, i ≠ .and ind a ∧ i ≠ .add ind a ∧ i ≠ .load ind a) → t.DR = s.DR) ∧
    ((∀ ind a, i ≠ .and ind a ∧ i ≠ .add ind a ∧ i ≠ .load ind a) →
      i ≠ .cla → i ≠ .cma → i ≠ .cir → i ≠ .cil → i ≠ .inc → t.AC = s.AC) ∧
    ((∀ ind a, i ≠ .add ind a) → i ≠ .cle → i ≠ .cme → i ≠ .cir → i ≠ .cil → t.E = s.E) ∧
    ((∀ ind a, i ≠ .bun ind a) → i ≠ .spa → i ≠ .sna → i ≠ .sza → i ≠ .sze → t.PC = s.PC) ∧
    (i ≠ .halt → t.halted = s.halted)

/-- The frame of the three storing instructions: they store to AR as it is before the step, STORE and BSA in
T3 and ISZ in T5, and every other cell reads as before (R39, R79, R81, R82; the spec's choice D7). -/
def Obligations.StoringInstructionsFrame : Prop :=
  ∀ (i : Instr) (s t : State), exec i s = .next t →
    (∃ ind a, i = .store ind a ∨ i = .bsa ind a ∨ i = .isz ind a) →
    (∀ b, b ≠ s.AR → t.mem.read b = s.mem.read b) ∧
    ((∃ ind a, i = .store ind a ∨ i = .bsa ind a) → s.T ≠ 3 → ∀ b, t.mem.read b = s.mem.read b) ∧
    ((∃ ind a, i = .isz ind a) → s.T ≠ 5 → ∀ b, t.mem.read b = s.mem.read b) ∧
    t.AC = s.AC ∧ t.E = s.E ∧ t.IR = s.IR ∧ t.halted = s.halted ∧ t.assembled = s.assembled ∧
    t.PLEN = s.PLEN ∧ t.trace = s.trace ∧
    ((∀ ind a, i ≠ .isz ind a) → t.DR = s.DR) ∧
    (s.T ≠ 2 → (∀ ind a, i ≠ .bsa ind a) → t.AR = s.AR) ∧
    ((∃ ind a, i = .store ind a) → t.PC = s.PC)

/-! ### Who writes what, over whole steps -/

/-- R16 (the spec's choice D1): the steps that write AC, the instructions that do not read it, and its initial
values. -/
def Obligations.AccumulatorReadersAndWriters : Prop :=
  (∀ s t : State, step s = .next t → t.AC ≠ s.AC →
    (s.T = 4 ∧ ∃ ind a, decode s.IR = .and ind a ∨ decode s.IR = .add ind a ∨ decode s.IR = .load ind a) ∨
    (s.T = 3 ∧ (decode s.IR = .cla ∨ decode s.IR = .cma ∨ decode s.IR = .cir ∨ decode s.IR = .cil ∨
      decode s.IR = .inc))) ∧
  (∀ i : Instr, readsAC i = false → ∀ (s : State) (x : Word),
    seen (fun t => { t with AC := 0 }) (exec i { s with AC := x }) = seen (fun t => { t with AC := 0 }) (exec i s)) ∧
  (∀ (ind : Bool) (a : Address) (s : State) (x : Word), s.T = 4 →
    exec (.load ind a) { s with AC := x } = exec (.load ind a) s) ∧
  (∀ (s : State) (x : Word), s.T = 3 → exec .cla { s with AC := x } = exec .cla s) ∧
  State.reset.AC = 0 ∧ ∀ s : State, (hostReset s).AC = 0

/-- R17 (the spec's choice D14): the steps that write E, the instructions that do not read it, and its initial
values. -/
def Obligations.FlagReadersAndWriters : Prop :=
  (∀ s t : State, step s = .next t → t.E ≠ s.E →
    (s.T = 4 ∧ ∃ ind a, decode s.IR = .add ind a) ∨
    (s.T = 3 ∧ (decode s.IR = .cle ∨ decode s.IR = .cme ∨ decode s.IR = .cir ∨ decode s.IR = .cil))) ∧
  (∀ i : Instr, readsE i = false → ∀ (s : State) (x : Flag),
    seen (fun t => { t with E := 0 }) (exec i { s with E := x }) = seen (fun t => { t with E := 0 }) (exec i s)) ∧
  (∀ (ind : Bool) (a : Address) (s : State) (x : Flag), s.T = 4 →
    exec (.add ind a) { s with E := x } = exec (.add ind a) s) ∧
  State.reset.E = 0 ∧ ∀ s : State, (hostReset s).E = 0

/-- R18 and R20: T1 of every instruction loads IR and advances PC by one modulo 4096; no other step writes IR, and
every later step decodes it; the other steps that write PC are the listed ones, a skip adding one modulo 4096; both
are zero at session start and
after reset. -/
def Obligations.FetchRegisterWriters : Prop :=
  (∀ s t : State, step s = .next t → s.halted = false →
    (s.T = 1 → t.IR = s.mem.read s.AR ∧ t.PC = BitVec.ofNat 12 ((s.PC.toNat + 1) % 4096)) ∧
    (t.IR ≠ s.IR → s.T = 1) ∧
    (2 ≤ s.T.toNat → ∃ u, exec (decode s.IR) s = .next u ∧ t = recorded s u (memoryReference s)) ∧
    (t.PC ≠ s.PC →
      s.T = 1 ∨ (s.T = 3 ∧ ∃ ind a, decode s.IR = .bun ind a) ∨ (s.T = 4 ∧ ∃ ind a, decode s.IR = .bsa ind a) ∨
      (t.PC = BitVec.ofNat 12 ((s.PC.toNat + 1) % 4096) ∧
        ((s.T = 5 ∧ s.DR = 0 ∧ ∃ ind a, decode s.IR = .isz ind a) ∨
          (s.T = 3 ∧ (decode s.IR = .spa ∨ decode s.IR = .sna ∨ decode s.IR = .sza ∨ decode s.IR = .sze)))))) ∧
  State.reset.IR = 0 ∧ State.reset.PC = 0 ∧ ∀ s : State, (hostReset s).IR = 0 ∧ (hostReset s).PC = 0

/-- R19 and R21 (the spec's choices D7, D12): the only steps that write AR and DR. -/
def Obligations.SequencerRegisterWriters : Prop :=
  ∀ s t : State, step s = .next t → s.halted = false →
    (t.AR ≠ s.AR → s.T = 0 ∨ s.T = 2 ∨ (s.T = 3 ∧ ∃ ind a, decode s.IR = .bsa ind a)) ∧
    (t.DR ≠ s.DR →
      (s.T = 3 ∧ ∃ ind a, decode s.IR = .and ind a ∨ decode s.IR = .add ind a ∨ decode s.IR = .load ind a ∨
        decode s.IR = .isz ind a) ∨
      (s.T = 4 ∧ ∃ ind a, decode s.IR = .isz ind a))

/-- R22, R23, R26: T advances by one or returns to 0; Halt is entered by HALT's T3 or the T0 check alone and
with T = 0; no step changes `assembled` or PLEN (the spec's choices D9, D10, D11). -/
def Obligations.TimingStateAndHaltTransitions : Prop :=
  ∀ s t : State, step s = .next t → s.halted = false →
    (t.T = s.T + 1 ∨ t.T = 0) ∧
    (t.halted = true → t.T = 0 ∧
      ((s.T = 0 ∧ s.PLEN.toNat ≤ s.PC.toNat) ∨ (s.T = 3 ∧ decode s.IR = .halt))) ∧
    t.assembled = s.assembled ∧ t.PLEN = s.PLEN

/-- R39: a step changes at most the cell at AR, and only in the three storing steps of the table, with the word
each stores (the spec's choice D7). -/
def Obligations.StepWritesAtMostOneCell : Prop :=
  ∀ s t : State, s.mem.wf = true → step s = .next t → ∀ a, t.mem.read a ≠ s.mem.read a →
    a = s.AR ∧
    ((s.T = 3 ∧ (∃ ind p, decode s.IR = .store ind p) ∧ t.mem.read a = s.AC) ∨
      (s.T = 3 ∧ (∃ ind p, decode s.IR = .bsa ind p) ∧ t.mem.read a = s.PC.setWidth 16) ∨
      (s.T = 5 ∧ (∃ ind p, decode s.IR = .isz ind p) ∧ t.mem.read a = s.DR))

/-! ### Rules that join several steps -/

/-- R81's calling convention: an indirect BUN through the cell where BSA left its return address goes back to
the word after the BSA, and cannot raise (the spec's choices D1, D36). -/
def Obligations.IndirectBranchReturnsFromCall : Prop :=
  ∀ (ind : Bool) (a : Address) (s t u : State), s.mem.wf = true → s.T = 3 →
    exec (.bsa ind a) s = .next t → u.mem = t.mem → u.T = 2 →
    ∃ v, exec (.bun true s.AR) u = .next v ∧ exec (.bun true s.AR) v = .next { u with AR := s.PC, PC := s.PC, T := 0 }

/-- R45 (which the spec derives from R68, R20, R43): a fetch from a cell sees the word that the latest store left
there, be it T3 of STORE or BSA, T5 of ISZ or a host write: `u` is any state in T1 of that cell in which the cell
still reads as the store left it. A store does not change IR. -/
def Obligations.FetchSeesStoredWord : Prop :=
  ∀ s u : State, s.mem.wf = true → u.Running 1 →
    (∀ (t : State) (v : Word), s.halted = false → step s = .next t →
      ((s.T = 3 ∧ (∃ ind a, decode s.IR = .store ind a) ∧ v = s.AC) ∨
        (s.T = 3 ∧ (∃ ind a, decode s.IR = .bsa ind a) ∧ v = s.PC.setWidth 16) ∨
        (s.T = 5 ∧ (∃ ind a, decode s.IR = .isz ind a) ∧ v = s.DR)) →
      u.AR = s.AR → u.mem.read s.AR = t.mem.read s.AR →
      t.IR = s.IR ∧ ∃ w, step u = .next w ∧ w.IR = v) ∧
    (∀ a x : Nat, a ≤ 4095 → u.AR = BitVec.ofNat 12 a →
      u.mem.read u.AR = (writeMemory a x s).state.mem.read u.AR →
      (writeMemory a x s).state.IR = s.IR ∧ ∃ w, step u = .next w ∧ w.IR = BitVec.ofNat 16 (x % 65536))

/-- R130 (which the spec derives from R102, R68, R69, R82): a host write between two micro-steps takes effect at
once: it does not change IR; a write to the indirect cell before T1 or before T2 gives the effective address; and a
write to the operand of ISZ between its T3 and its T5, that is before T4 or before T5, is overwritten by T5. -/
def Obligations.HostWriteBetweenMicroSteps : Prop :=
  ∀ (s : State) (v : Nat), s.mem.wf = true →
    (∀ a, (writeMemory a v s).state.IR = s.IR) ∧
    (s.Running 1 → opField (s.mem.read s.AR) ≠ 7 → iBit (s.mem.read s.AR) = true →
      addrField (s.mem.read s.AR) ≠ s.AR → v ≤ 4095 →
      ∃ t, stepsFrom 2 (writeMemory (addrField (s.mem.read s.AR)).toNat v s).state = .next t ∧
        t.AR = BitVec.ofNat 12 v) ∧
    (s.Running 2 → opField s.IR ≠ 7 → iBit s.IR = true → v ≤ 4095 →
      ∃ t, step (writeMemory (addrField s.IR).toNat v s).state = .next t ∧ t.AR = BitVec.ofNat 12 v) ∧
    (s.Running 4 → (∃ ind a, decode s.IR = .isz ind a) →
      ∃ t, stepsFrom 2 (writeMemory s.AR.toNat v s).state = .next t ∧ t.mem.read s.AR = s.DR + 1) ∧
    (s.Running 5 → (∃ ind a, decode s.IR = .isz ind a) →
      ∃ t, step (writeMemory s.AR.toNat v s).state = .next t ∧ t.mem.read s.AR = s.DR)

/-! ### Host operations -/

/-- R101: a successful assemble loads the words, clears the rest of memory and starts a fresh run; a failed one
changes nothing (the spec's choices D16, D33; that memory is then in canonical form is the model's own,
notes/assumptions/3.md). -/
def Obligations.AssembleCommitsAllOrNothing : Prop :=
  (∀ (lines : List String) (ws : List Word) (s : State), lines.map encodeLine = ws.map some →
    lines.length ≤ 4096 →
    ∃ m, m.wf = true ∧
      (∀ a : Address, m.read a = if h : a.toNat < ws.length then ws[a.toNat] else 0) ∧
      assemble lines s =
        ⟨{ AC := 0, DR := 0, IR := 0, PC := 0, AR := 0, E := 0, T := 0, halted := false, assembled := true,
           PLEN := BitVec.ofNat 13 lines.length, mem := m, trace := [] },
         .ok ⟨(List.range 4096).map fun a => (a, m.read (BitVec.ofNat 12 a)),
              (List.range lines.length).map fun a => (a + 1, a)⟩⟩) ∧
  (∀ (lines : List String) (k : Nat) (s : State), assembleLines lines = .error k →
    assemble lines s = ⟨s, .err (.syntaxError k)⟩)

/-- R112: SyntaxError is raised by assemble alone, which then changes no state. -/
def Obligations.SyntaxErrorOnlyByAssemble : Prop :=
  (∀ (lines : List String) (s : State) (k : Nat), (assemble lines s).answer = .err (.syntaxError k) →
    (assemble lines s).state = s) ∧
  (∀ (s : State) (k : Nat), (hostStep s).answer ≠ .err (.syntaxError k) ∧
    (runInstruction s).answer ≠ .err (.syntaxError k) ∧
    (∀ N, (runToHalt N s).answer ≠ .err (.syntaxError k)) ∧
    ∀ a w, (writeMemory a w s).answer ≠ .err (.syntaxError k))

/-- R102: writeMemory writes one cell, masked to 16 bits, and nothing else (the spec's choice D17). -/
def Obligations.WriteMemoryTouchesOneCell : Prop :=
  ∀ (s : State) (a w : Nat), s.mem.wf = true →
    (4095 < a → writeMemory a w s = ⟨s, .err (.outOfRange a)⟩) ∧
    (a ≤ 4095 → ∃ m, writeMemory a w s = ⟨{ s with mem := m }, .ok ()⟩ ∧
      m.read (BitVec.ofNat 12 a) = BitVec.ofNat 16 (w % 65536) ∧
      ∀ b, b ≠ BitVec.ofNat 12 a → m.read b = s.mem.read b)

/-- R103: the queries answer copies of the state and change nothing (the spec's choice D31). -/
def Obligations.QueriesReadTheState : Prop :=
  ∀ s : State,
    (memoryContents s).length = 4096 ∧
    (∀ (a : Nat) (h : a < (memoryContents s).length),
      (memoryContents s)[a] = (a, s.mem.read (BitVec.ofNat 12 a))) ∧
    registerSnapshot s = ⟨s.IR, s.AC, s.DR, s.PC, s.AR, s.E, s.T, s.halted⟩ ∧
    traceEntries s = s.trace ∧
    HostOp.memoryContents.after s = s ∧ HostOp.registerSnapshot.after s = s ∧ HostOp.trace.after s = s

/-- R125: reset clears the registers, T, halted and the trace, and keeps M, PLEN and assembled; at session
start it changes nothing (the spec's choice D18). -/
def Obligations.ResetKeepsMemoryAndProgram : Prop :=
  (∀ s : State, hostReset s =
    { AC := 0, DR := 0, IR := 0, PC := 0, AR := 0, E := 0, T := 0, halted := false, trace := [],
      mem := s.mem, PLEN := s.PLEN, assembled := s.assembled }) ∧
  hostReset State.reset = State.reset

/-- R124: session start, where the control operations fail and the others succeed (the spec's choice D32;
the model's State.reset is this state, notes/assumptions/1.md). -/
def Obligations.SessionStartState : Prop :=
  (∀ a, State.reset.mem.read a = 0) ∧ State.reset.AC = 0 ∧ State.reset.DR = 0 ∧ State.reset.IR = 0 ∧
  State.reset.PC = 0 ∧ State.reset.AR = 0 ∧ State.reset.E = 0 ∧ State.reset.T = 0 ∧
  State.reset.halted = false ∧ State.reset.assembled = false ∧ State.reset.PLEN = 0 ∧ State.reset.trace = [] ∧
  (hostStep State.reset).answer = .err .notAssembled ∧ (runInstruction State.reset).answer = .err .notAssembled ∧
  (∀ N, (runToHalt N State.reset).answer = .err .notAssembled) ∧
  (∀ a w, a ≤ 4095 → (writeMemory a w State.reset).answer = .ok ()) ∧
  ∃ r, (assemble [] State.reset).answer = .ok r

/-- R106: `runToHalt(N)` does at most N micro-steps, stops at the first halted state, and hands on a step's error
with the micro-steps before it done (the spec's choices D21, D28). -/
def Obligations.RunToHaltIsBounded : Prop :=
  ∀ (N : Nat) (s : State),
    (s.assembled = false → runToHalt N s = ⟨s, .err .notAssembled⟩) ∧
    (s.assembled = true →
      (∀ k, (runToHalt N s).answer = .ok k →
        k ≤ N ∧ (runToHalt N s).state.halted = true ∧ stepsFrom k s = .next (runToHalt N s).state ∧
        ∀ (j : Nat) (u : State), j < k → stepsFrom j s = .next u → u.halted = false) ∧
      (∀ f, (runToHalt N s).answer = .err f → f ≠ .stepLimitExceeded →
        ∃ k, k < N ∧ stepsFrom k s = .next (runToHalt N s).state ∧
          step (runToHalt N s).state = .fault f) ∧
      (s.Legal → ∀ r, (runToHalt N s).answer ≠ .refused r))

/-- R111: StepLimitExceeded is raised by `runToHalt(N)` alone, after exactly N micro-steps with the block still not
halted; they stay done, and the block accepts further operations: from a legal state, the next step answers a next
state or the step's own error. -/
def Obligations.StepLimitExceededAtTheBoundOnly : Prop :=
  (∀ (N : Nat) (s : State), (runToHalt N s).answer = .err .stepLimitExceeded →
    (runToHalt N s).state.halted = false ∧ stepsFrom N s = .next (runToHalt N s).state ∧
    (s.Legal → ∀ r, step (runToHalt N s).state ≠ .refused r)) ∧
  (∀ s : State, (hostStep s).answer ≠ .err .stepLimitExceeded ∧
    (runInstruction s).answer ≠ .err .stepLimitExceeded ∧
    (∀ a w, (writeMemory a w s).answer ≠ .err .stepLimitExceeded) ∧
    ∀ lines, (assemble lines s).answer ≠ .err .stepLimitExceeded)

/-- R105: `runInstruction` ends at the instruction boundary or in Halt within six micro-steps, or with the
error of a T2, the micro-steps before it done (the spec's choice D20, and its derivation of the bound). -/
def Obligations.RunInstructionAlwaysEnds : Prop :=
  ∀ s : State,
    (s.assembled = false → runInstruction s = ⟨s, .err .notAssembled⟩) ∧
    (s.assembled = true → s.halted = true → runInstruction s = ⟨s, .ok 0⟩) ∧
    (s.assembled = true → s.halted = false → s.Legal →
      (∃ k t, runInstruction s = ⟨t, .ok k⟩ ∧ 1 ≤ k ∧ k ≤ 6 ∧ (t.halted = true ∨ t.T = 0) ∧
        stepsFrom k s = .next t ∧
        ∀ (j : Nat) (u : State), 1 ≤ j → j < k → stepsFrom j s = .next u →
          u.halted = false ∧ u.T ≠ 0) ∨
      (∃ k t f, runInstruction s = ⟨t, .err f⟩ ∧ stepsFrom k s = .next t ∧ step t = .fault f ∧
        t.T = 2))

/-! ### Invariants -/

/-- The state at session start is legal (R30, which the spec derives; `State.Legal` adds the model's own canonical
form, notes/assumptions/3.md). -/
def Obligations.SessionStartIsLegal : Prop := State.reset.Legal

/-- Every step keeps the invariants of R30, the canonical form of memory and the ROM's coverage of the
timing state (the spec derives R30; the canonical form is the model's own, notes/assumptions/3.md). -/
def Obligations.StepKeepsLegalState : Prop :=
  ∀ s t : State, s.Legal → step s = .next t → t.Legal

/-- Every operation of the host keeps them (R30, R100; the canonical form is the model's own, notes/assumptions/3.md). -/
def Obligations.HostOperationsKeepLegalState : Prop :=
  ∀ (o : HostOp) (s : State), s.Legal → (o.after s).Legal

/-- Points 1 to 6 of R30 (which the spec derives), of every state reachable from session start by the host's
operations; its point 7, that every register is within its width, holds by the types of State. Point 6 is read off the
trace: in T0 of a block that is not halted, the trace is empty or ends with the whole cycle of the instruction in IR,
T0 to its terminal step. The last clause, that memory is in canonical form, is the model's own and not R30's
(notes/assumptions/3.md, DESIGN CHOICE). -/
def Obligations.ReachableStatesMeetInvariants : Prop :=
  ∀ s : State, Reachable s →
    s.T.toNat ≤ 5 ∧ (s.halted = true → s.T = 0) ∧ (s.halted = true → s.assembled = true) ∧
    s.PLEN.toNat ≤ 4096 ∧ (s.assembled = false → s.PLEN = 0 ∧ s.trace = []) ∧
    (2 ≤ s.T.toNat → ∃ before e after, s.trace = before ++ e :: after ∧ e.label = "T1" ∧ e.snap.IR = s.IR ∧
      ∀ x ∈ after, x.label ≠ "T1") ∧
    (s.T = 0 → s.halted = false → s.trace = [] ∨
      ∃ before cycle, s.trace = before ++ cycle ∧
        cycle.map TraceEntry.label = ["T0", "T1", "T2", "T3", "T4", "T5"].take (microSteps (decode s.IR))) ∧
    s.mem.wf = true

/-- Nothing that the operations reach is without a successor: a step answers a next state or the block's own
error, never a refusal (R54, R71). -/
def Obligations.ReachableStepIsNeverRefused : Prop :=
  ∀ s : State, Reachable s → (∃ t, step s = .next t) ∨ (∃ f, step s = .fault f)
end

