-- ==== Sys2Proof/Laws/Memory.lean ====
section
/-! SUPPORT. The laws of memory: a read after a write, the canonical form, and that the form makes equal
memories equal lists. -/

namespace Sys2Proof.Machine.Memory

@[simp] theorem get_nil (a : Nat) : get [] a = Config.initialCell := rfl

theorem get_cons (k : Nat) (v : Word) (m : Memory) (a : Nat) :
    get ((k, v) :: m) a = if k = a then v else get m a := rfl

theorem sortedFrom_cons {lo k : Nat} {v : Word} {m : Memory} :
    sortedFrom lo ((k, v) :: m) = true ↔
      lo ≤ k ∧ k < Config.memWords ∧ v ≠ Config.initialCell ∧ sortedFrom (k + 1) m = true := by
  simp [sortedFrom, and_assoc]

theorem sortedFrom_mono {lo lo' : Nat} {m : Memory} (h : sortedFrom lo m = true) (hl : lo' ≤ lo) :
    sortedFrom lo' m = true := by
  cases m with
  | nil => rfl
  | cons c m =>
    obtain ⟨k, v⟩ := c
    rw [sortedFrom_cons] at h ⊢
    exact ⟨hl.trans h.1, h.2⟩

/-- Below the first key, every cell holds the initial word. -/
theorem get_of_lt {lo a : Nat} {m : Memory} (h : sortedFrom lo m = true) (ha : a < lo) :
    get m a = Config.initialCell := by
  induction m generalizing lo with
  | nil => rfl
  | cons c m ih =>
    obtain ⟨k, v⟩ := c
    rw [sortedFrom_cons] at h
    rw [get_cons, if_neg (by omega)]
    exact ih h.2.2.2 (by omega)

/-- Past the address space, no cell is listed. -/
theorem get_of_ge {lo a : Nat} {m : Memory} (h : sortedFrom lo m = true) (ha : Config.memWords ≤ a) :
    get m a = Config.initialCell := by
  induction m generalizing lo with
  | nil => rfl
  | cons c m ih =>
    obtain ⟨k, v⟩ := c
    rw [sortedFrom_cons] at h
    rw [get_cons, if_neg (by omega)]
    exact ih h.2.2.2

theorem get_put_same {lo a : Nat} {m : Memory} (v : Word) (h : sortedFrom lo m = true) :
    get (put m a v) a = v := by
  induction m generalizing lo with
  | nil => unfold put; split <;> simp_all [get_cons]
  | cons c m ih =>
    obtain ⟨k, u⟩ := c
    rw [sortedFrom_cons] at h
    unfold put
    split
    · rw [get_cons, if_neg (by omega)]; exact ih h.2.2.2
    split
    · split
      · rw [get_of_lt h.2.2.2 (by omega)]; simp_all
      · simp [get_cons]
    split
    · rw [get_cons, if_neg (by omega), get_of_lt h.2.2.2 (by omega)]; simp_all
    · simp [get_cons]

theorem get_put_other {a b : Nat} (m : Memory) (v : Word) (hab : b ≠ a) :
    get (put m a v) b = get m b := by
  induction m with
  | nil => unfold put; split <;> simp [get_cons, hab.symm]
  | cons c m ih =>
    obtain ⟨k, u⟩ := c
    unfold put
    split
    · rw [get_cons, get_cons, ih]
    split
    · rename_i hk; subst hk
      split <;> simp [get_cons, hab.symm]
    split <;> simp [get_cons, hab.symm]

theorem sortedFrom_put {lo a : Nat} {m : Memory} (v : Word) (h : sortedFrom lo m = true) (hlo : lo ≤ a)
    (ha : a < Config.memWords) : sortedFrom lo (put m a v) = true := by
  induction m generalizing lo with
  | nil => unfold put; split <;> simp_all [sortedFrom]
  | cons c m ih =>
    obtain ⟨k, u⟩ := c
    rw [sortedFrom_cons] at h
    unfold put
    split
    · rw [sortedFrom_cons]
      exact ⟨h.1, h.2.1, h.2.2.1, ih h.2.2.2 (by omega)⟩
    split
    · rename_i hk; subst hk
      split
      · exact sortedFrom_mono h.2.2.2 (by omega)
      · rw [sortedFrom_cons]; exact ⟨hlo, ha, ‹_›, h.2.2.2⟩
    split
    · rw [sortedFrom_cons]; exact h
    · rw [sortedFrom_cons, sortedFrom_cons]
      exact ⟨hlo, ha, ‹_›, by omega, h.2.1, h.2.2.1, h.2.2.2⟩

/-- Equal reads make equal canonical memories. -/
theorem ext_of_sortedFrom {lo : Nat} {m n : Memory} (hm : sortedFrom lo m = true) (hn : sortedFrom lo n = true)
    (h : ∀ a, get m a = get n a) : m = n := by
  induction m generalizing lo n with
  | nil =>
    cases n with
    | nil => rfl
    | cons d n =>
      obtain ⟨k, v⟩ := d
      rw [sortedFrom_cons] at hn
      have := h k
      simp [get_cons] at this
      exact absurd this.symm hn.2.2.1
  | cons c m ih =>
    obtain ⟨j, u⟩ := c
    rw [sortedFrom_cons] at hm
    cases n with
    | nil =>
      have := h j
      simp [get_cons] at this
      exact absurd this hm.2.2.1
    | cons d n =>
      obtain ⟨k, v⟩ := d
      rw [sortedFrom_cons] at hn
      have hjk : j = k := by
        rcases Nat.lt_trichotomy j k with hlt | heq | hgt
        · have := h j
          rw [get_cons, if_pos rfl, get_cons, if_neg (by omega), get_of_lt hn.2.2.2 (by omega)] at this
          exact absurd this hm.2.2.1
        · exact heq
        · have := h k
          rw [get_cons, if_neg (by omega), get_of_lt hm.2.2.2 (by omega), get_cons, if_pos rfl] at this
          exact absurd this.symm hn.2.2.1
      subst hjk
      have huv : u = v := by have := h j; simpa [get_cons] using this
      subst huv
      rw [ih hm.2.2.2 hn.2.2.2 fun a => ?_]
      by_cases ha : j = a
      · subst ha
        rw [get_of_lt hm.2.2.2 (by omega), get_of_lt hn.2.2.2 (by omega)]
      · have := h a
        rwa [get_cons, if_neg ha, get_cons, if_neg ha] at this

@[simp] theorem wf_nil : wf [] = true := rfl

/-- Every write to an Address keeps the canonical form. -/
theorem wf_write {m : Memory} (a : Address) (v : Word) (h : m.wf = true) : (m.write a v).wf = true :=
  sortedFrom_put v h (Nat.zero_le _) a.isLt

theorem read_write_same {m : Memory} (a : Address) (v : Word) (h : m.wf = true) : (m.write a v).read a = v :=
  get_put_same v h

theorem read_write_other (m : Memory) {a b : Address} (v : Word) (h : b ≠ a) :
    (m.write a v).read b = m.read b :=
  get_put_other m v fun e => h (BitVec.eq_of_toNat_eq e)

/-- The primitive writes keep the canonical form. -/
theorem wf_memWrite {m n : Memory} {a v : Nat} (h : m.wf = true) (e : memWrite m a v = .ok n) : n.wf = true := by
  unfold memWrite at e
  split at e
  · cases e; exact sortedFrom_put _ h (Nat.zero_le _) ‹_›
  · cases e

end Sys2Proof.Machine.Memory

/-- Memory at session start is in canonical form. -/
theorem Sys2Proof.Machine.State.reset_mem_wf : Sys2Proof.Machine.State.reset.mem.wf = true := rfl
end

