-- ==== Sys2Proof/Laws/State.lean ====
section
/-! SUPPORT. One lemma per field per update of State, and the same for `record` and `advance`, so that no later
proof unfolds a record update. -/

namespace Sys2Proof.Machine.State

variable (s : State)

/-! `setAC` -/

@[simp] theorem setAC_AC (v : Word) : (s.setAC v).AC = v := rfl
@[simp] theorem setAC_DR (v : Word) : (s.setAC v).DR = s.DR := rfl
@[simp] theorem setAC_IR (v : Word) : (s.setAC v).IR = s.IR := rfl
@[simp] theorem setAC_PC (v : Word) : (s.setAC v).PC = s.PC := rfl
@[simp] theorem setAC_AR (v : Word) : (s.setAC v).AR = s.AR := rfl
@[simp] theorem setAC_E (v : Word) : (s.setAC v).E = s.E := rfl
@[simp] theorem setAC_T (v : Word) : (s.setAC v).T = s.T := rfl
@[simp] theorem setAC_halted (v : Word) : (s.setAC v).halted = s.halted := rfl
@[simp] theorem setAC_assembled (v : Word) : (s.setAC v).assembled = s.assembled := rfl
@[simp] theorem setAC_PLEN (v : Word) : (s.setAC v).PLEN = s.PLEN := rfl
@[simp] theorem setAC_mem (v : Word) : (s.setAC v).mem = s.mem := rfl
@[simp] theorem setAC_trace (v : Word) : (s.setAC v).trace = s.trace := rfl

/-! `setDR` -/

@[simp] theorem setDR_AC (v : Word) : (s.setDR v).AC = s.AC := rfl
@[simp] theorem setDR_DR (v : Word) : (s.setDR v).DR = v := rfl
@[simp] theorem setDR_IR (v : Word) : (s.setDR v).IR = s.IR := rfl
@[simp] theorem setDR_PC (v : Word) : (s.setDR v).PC = s.PC := rfl
@[simp] theorem setDR_AR (v : Word) : (s.setDR v).AR = s.AR := rfl
@[simp] theorem setDR_E (v : Word) : (s.setDR v).E = s.E := rfl
@[simp] theorem setDR_T (v : Word) : (s.setDR v).T = s.T := rfl
@[simp] theorem setDR_halted (v : Word) : (s.setDR v).halted = s.halted := rfl
@[simp] theorem setDR_assembled (v : Word) : (s.setDR v).assembled = s.assembled := rfl
@[simp] theorem setDR_PLEN (v : Word) : (s.setDR v).PLEN = s.PLEN := rfl
@[simp] theorem setDR_mem (v : Word) : (s.setDR v).mem = s.mem := rfl
@[simp] theorem setDR_trace (v : Word) : (s.setDR v).trace = s.trace := rfl

/-! `setIR` -/

@[simp] theorem setIR_AC (v : Word) : (s.setIR v).AC = s.AC := rfl
@[simp] theorem setIR_DR (v : Word) : (s.setIR v).DR = s.DR := rfl
@[simp] theorem setIR_IR (v : Word) : (s.setIR v).IR = v := rfl
@[simp] theorem setIR_PC (v : Word) : (s.setIR v).PC = s.PC := rfl
@[simp] theorem setIR_AR (v : Word) : (s.setIR v).AR = s.AR := rfl
@[simp] theorem setIR_E (v : Word) : (s.setIR v).E = s.E := rfl
@[simp] theorem setIR_T (v : Word) : (s.setIR v).T = s.T := rfl
@[simp] theorem setIR_halted (v : Word) : (s.setIR v).halted = s.halted := rfl
@[simp] theorem setIR_assembled (v : Word) : (s.setIR v).assembled = s.assembled := rfl
@[simp] theorem setIR_PLEN (v : Word) : (s.setIR v).PLEN = s.PLEN := rfl
@[simp] theorem setIR_mem (v : Word) : (s.setIR v).mem = s.mem := rfl
@[simp] theorem setIR_trace (v : Word) : (s.setIR v).trace = s.trace := rfl

/-! `setPC` -/

@[simp] theorem setPC_AC (v : Address) : (s.setPC v).AC = s.AC := rfl
@[simp] theorem setPC_DR (v : Address) : (s.setPC v).DR = s.DR := rfl
@[simp] theorem setPC_IR (v : Address) : (s.setPC v).IR = s.IR := rfl
@[simp] theorem setPC_PC (v : Address) : (s.setPC v).PC = v := rfl
@[simp] theorem setPC_AR (v : Address) : (s.setPC v).AR = s.AR := rfl
@[simp] theorem setPC_E (v : Address) : (s.setPC v).E = s.E := rfl
@[simp] theorem setPC_T (v : Address) : (s.setPC v).T = s.T := rfl
@[simp] theorem setPC_halted (v : Address) : (s.setPC v).halted = s.halted := rfl
@[simp] theorem setPC_assembled (v : Address) : (s.setPC v).assembled = s.assembled := rfl
@[simp] theorem setPC_PLEN (v : Address) : (s.setPC v).PLEN = s.PLEN := rfl
@[simp] theorem setPC_mem (v : Address) : (s.setPC v).mem = s.mem := rfl
@[simp] theorem setPC_trace (v : Address) : (s.setPC v).trace = s.trace := rfl

/-! `setAR` -/

@[simp] theorem setAR_AC (v : Address) : (s.setAR v).AC = s.AC := rfl
@[simp] theorem setAR_DR (v : Address) : (s.setAR v).DR = s.DR := rfl
@[simp] theorem setAR_IR (v : Address) : (s.setAR v).IR = s.IR := rfl
@[simp] theorem setAR_PC (v : Address) : (s.setAR v).PC = s.PC := rfl
@[simp] theorem setAR_AR (v : Address) : (s.setAR v).AR = v := rfl
@[simp] theorem setAR_E (v : Address) : (s.setAR v).E = s.E := rfl
@[simp] theorem setAR_T (v : Address) : (s.setAR v).T = s.T := rfl
@[simp] theorem setAR_halted (v : Address) : (s.setAR v).halted = s.halted := rfl
@[simp] theorem setAR_assembled (v : Address) : (s.setAR v).assembled = s.assembled := rfl
@[simp] theorem setAR_PLEN (v : Address) : (s.setAR v).PLEN = s.PLEN := rfl
@[simp] theorem setAR_mem (v : Address) : (s.setAR v).mem = s.mem := rfl
@[simp] theorem setAR_trace (v : Address) : (s.setAR v).trace = s.trace := rfl

/-! `setE` -/

@[simp] theorem setE_AC (v : Flag) : (s.setE v).AC = s.AC := rfl
@[simp] theorem setE_DR (v : Flag) : (s.setE v).DR = s.DR := rfl
@[simp] theorem setE_IR (v : Flag) : (s.setE v).IR = s.IR := rfl
@[simp] theorem setE_PC (v : Flag) : (s.setE v).PC = s.PC := rfl
@[simp] theorem setE_AR (v : Flag) : (s.setE v).AR = s.AR := rfl
@[simp] theorem setE_E (v : Flag) : (s.setE v).E = v := rfl
@[simp] theorem setE_T (v : Flag) : (s.setE v).T = s.T := rfl
@[simp] theorem setE_halted (v : Flag) : (s.setE v).halted = s.halted := rfl
@[simp] theorem setE_assembled (v : Flag) : (s.setE v).assembled = s.assembled := rfl
@[simp] theorem setE_PLEN (v : Flag) : (s.setE v).PLEN = s.PLEN := rfl
@[simp] theorem setE_mem (v : Flag) : (s.setE v).mem = s.mem := rfl
@[simp] theorem setE_trace (v : Flag) : (s.setE v).trace = s.trace := rfl

/-! `setT` -/

@[simp] theorem setT_AC (v : TimingState) : (s.setT v).AC = s.AC := rfl
@[simp] theorem setT_DR (v : TimingState) : (s.setT v).DR = s.DR := rfl
@[simp] theorem setT_IR (v : TimingState) : (s.setT v).IR = s.IR := rfl
@[simp] theorem setT_PC (v : TimingState) : (s.setT v).PC = s.PC := rfl
@[simp] theorem setT_AR (v : TimingState) : (s.setT v).AR = s.AR := rfl
@[simp] theorem setT_E (v : TimingState) : (s.setT v).E = s.E := rfl
@[simp] theorem setT_T (v : TimingState) : (s.setT v).T = v := rfl
@[simp] theorem setT_halted (v : TimingState) : (s.setT v).halted = s.halted := rfl
@[simp] theorem setT_assembled (v : TimingState) : (s.setT v).assembled = s.assembled := rfl
@[simp] theorem setT_PLEN (v : TimingState) : (s.setT v).PLEN = s.PLEN := rfl
@[simp] theorem setT_mem (v : TimingState) : (s.setT v).mem = s.mem := rfl
@[simp] theorem setT_trace (v : TimingState) : (s.setT v).trace = s.trace := rfl

/-! `setHalted` -/

@[simp] theorem setHalted_AC (v : Bool) : (s.setHalted v).AC = s.AC := rfl
@[simp] theorem setHalted_DR (v : Bool) : (s.setHalted v).DR = s.DR := rfl
@[simp] theorem setHalted_IR (v : Bool) : (s.setHalted v).IR = s.IR := rfl
@[simp] theorem setHalted_PC (v : Bool) : (s.setHalted v).PC = s.PC := rfl
@[simp] theorem setHalted_AR (v : Bool) : (s.setHalted v).AR = s.AR := rfl
@[simp] theorem setHalted_E (v : Bool) : (s.setHalted v).E = s.E := rfl
@[simp] theorem setHalted_T (v : Bool) : (s.setHalted v).T = s.T := rfl
@[simp] theorem setHalted_halted (v : Bool) : (s.setHalted v).halted = v := rfl
@[simp] theorem setHalted_assembled (v : Bool) : (s.setHalted v).assembled = s.assembled := rfl
@[simp] theorem setHalted_PLEN (v : Bool) : (s.setHalted v).PLEN = s.PLEN := rfl
@[simp] theorem setHalted_mem (v : Bool) : (s.setHalted v).mem = s.mem := rfl
@[simp] theorem setHalted_trace (v : Bool) : (s.setHalted v).trace = s.trace := rfl

/-! `setMem` -/

@[simp] theorem setMem_AC (v : Memory) : (s.setMem v).AC = s.AC := rfl
@[simp] theorem setMem_DR (v : Memory) : (s.setMem v).DR = s.DR := rfl
@[simp] theorem setMem_IR (v : Memory) : (s.setMem v).IR = s.IR := rfl
@[simp] theorem setMem_PC (v : Memory) : (s.setMem v).PC = s.PC := rfl
@[simp] theorem setMem_AR (v : Memory) : (s.setMem v).AR = s.AR := rfl
@[simp] theorem setMem_E (v : Memory) : (s.setMem v).E = s.E := rfl
@[simp] theorem setMem_T (v : Memory) : (s.setMem v).T = s.T := rfl
@[simp] theorem setMem_halted (v : Memory) : (s.setMem v).halted = s.halted := rfl
@[simp] theorem setMem_assembled (v : Memory) : (s.setMem v).assembled = s.assembled := rfl
@[simp] theorem setMem_PLEN (v : Memory) : (s.setMem v).PLEN = s.PLEN := rfl
@[simp] theorem setMem_mem (v : Memory) : (s.setMem v).mem = v := rfl
@[simp] theorem setMem_trace (v : Memory) : (s.setMem v).trace = s.trace := rfl

/-! `record` -/

@[simp] theorem record_AC (t : TimingState) (ref : Option Address) : (s.record t ref).AC = s.AC := rfl
@[simp] theorem record_DR (t : TimingState) (ref : Option Address) : (s.record t ref).DR = s.DR := rfl
@[simp] theorem record_IR (t : TimingState) (ref : Option Address) : (s.record t ref).IR = s.IR := rfl
@[simp] theorem record_PC (t : TimingState) (ref : Option Address) : (s.record t ref).PC = s.PC := rfl
@[simp] theorem record_AR (t : TimingState) (ref : Option Address) : (s.record t ref).AR = s.AR := rfl
@[simp] theorem record_E (t : TimingState) (ref : Option Address) : (s.record t ref).E = s.E := rfl
@[simp] theorem record_T (t : TimingState) (ref : Option Address) : (s.record t ref).T = s.T := rfl
@[simp] theorem record_halted (t : TimingState) (ref : Option Address) : (s.record t ref).halted = s.halted := rfl
@[simp] theorem record_assembled (t : TimingState) (ref : Option Address) : (s.record t ref).assembled = s.assembled := rfl
@[simp] theorem record_PLEN (t : TimingState) (ref : Option Address) : (s.record t ref).PLEN = s.PLEN := rfl
@[simp] theorem record_mem (t : TimingState) (ref : Option Address) : (s.record t ref).mem = s.mem := rfl
@[simp] theorem record_trace (t : TimingState) (ref : Option Address) :
    (s.record t ref).trace = s.trace ++ [⟨stepLabel t, s.snapshot, ref⟩] := rfl

/-! `advance` -/

@[simp] theorem advance_AC : s.advance.AC = s.AC := rfl
@[simp] theorem advance_DR : s.advance.DR = s.DR := rfl
@[simp] theorem advance_IR : s.advance.IR = s.IR := rfl
@[simp] theorem advance_PC : s.advance.PC = s.PC := rfl
@[simp] theorem advance_AR : s.advance.AR = s.AR := rfl
@[simp] theorem advance_E : s.advance.E = s.E := rfl
@[simp] theorem advance_T : s.advance.T = s.T + 1 := rfl
@[simp] theorem advance_halted : s.advance.halted = s.halted := rfl
@[simp] theorem advance_assembled : s.advance.assembled = s.assembled := rfl
@[simp] theorem advance_PLEN : s.advance.PLEN = s.PLEN := rfl
@[simp] theorem advance_mem : s.advance.mem = s.mem := rfl
@[simp] theorem advance_trace : s.advance.trace = s.trace := rfl

/-! `snapshot` -/

@[simp] theorem snapshot_IR : s.snapshot.IR = s.IR := rfl
@[simp] theorem snapshot_AC : s.snapshot.AC = s.AC := rfl
@[simp] theorem snapshot_DR : s.snapshot.DR = s.DR := rfl
@[simp] theorem snapshot_PC : s.snapshot.PC = s.PC := rfl
@[simp] theorem snapshot_AR : s.snapshot.AR = s.AR := rfl
@[simp] theorem snapshot_E : s.snapshot.E = s.E := rfl
@[simp] theorem snapshot_T : s.snapshot.T = s.T := rfl
@[simp] theorem snapshot_halted : s.snapshot.halted = s.halted := rfl

end Sys2Proof.Machine.State
end

