-- ==== Sys2Proof/Laws/Micro.lean ====
section
/-! SUPPORT. What the shared operations of a meaning can do: the operand forms, one ROM entry, and the
instruction's micro-step. -/

namespace Sys2Proof.Machine

/-! ### Operands -/

theorem fieldOperand_eq (a : Address) (s : State) :
    fieldOperand a s = .next { s with AR := a, T := s.T + 1 } := rfl

theorem indirectOperand_ok {a : Address} {s : State} (h : (s.mem.read a).toNat ≤ 4095) :
    indirectOperand a s = .next { s with AR := BitVec.ofNat 12 (s.mem.read a).toNat, T := s.T + 1 } := by
  simp only [indirectOperand, if_neg (Nat.not_lt.mpr h)]; rfl

theorem indirectOperand_bad {a : Address} {s : State} (h : 4095 < (s.mem.read a).toNat) :
    indirectOperand a s = .fault (.outOfRange (s.mem.read a).toNat) := by
  simp only [indirectOperand, if_pos h, raise]

/-- An operand form never answers a refusal, and a next state of it differs in AR and T only. -/
theorem memoryOperand_next {ind : Bool} {a : Address} {s t : State} (h : memoryOperand ind a s = .next t) :
    t = { s with AR := t.AR, T := s.T + 1 } ∧
      t.AR = if ind then BitVec.ofNat 12 (s.mem.read a).toNat else a := by
  cases ind with
  | false => simp only [memoryOperand, fieldOperand_eq] at h; cases h; exact ⟨rfl, rfl⟩
  | true =>
    by_cases hb : 4095 < (s.mem.read a).toNat
    · simp [memoryOperand, indirectOperand_bad hb] at h
    · simp only [memoryOperand, if_true, indirectOperand_ok (Nat.not_lt.mp hb)] at h
      cases h; exact ⟨rfl, rfl⟩

theorem memoryOperand_fault {ind : Bool} {a : Address} {s : State} {f : Fault}
    (h : memoryOperand ind a s = .fault f) :
    ind = true ∧ 4095 < (s.mem.read a).toNat ∧ f = .outOfRange (s.mem.read a).toNat := by
  cases ind with
  | false => simp [memoryOperand, fieldOperand_eq] at h
  | true =>
    by_cases hb : 4095 < (s.mem.read a).toNat
    · simp only [memoryOperand, if_true, indirectOperand_bad hb] at h
      cases h; exact ⟨rfl, hb, rfl⟩
    · simp [memoryOperand, indirectOperand_ok (Nat.not_lt.mp hb)] at h

theorem memoryOperand_not_refused (ind : Bool) (a : Address) (s : State) (r : Refusal) :
    memoryOperand ind a s ≠ .refused r := by
  cases ind with
  | false => simp [memoryOperand, fieldOperand_eq]
  | true =>
    by_cases hb : 4095 < (s.mem.read a).toNat
    · simp [memoryOperand, indirectOperand_bad hb]
    · simp [memoryOperand, indirectOperand_ok (Nat.not_lt.mp hb)]

/-! ### The instruction's micro-step -/

/-- Everything `instructionStep` can answer. -/
theorem instructionStep_cases (operand : State → Host.Outcome State Fault Refusal) (rows : List RomEntry)
    (s : State) :
    (s.T = 2 ∧ instructionStep operand rows s = operand s) ∨
    (s.T ≠ 2 ∧ ∃ e, romEntry rows s.T.toNat = some e ∧
      instructionStep operand rows s = .next (executeEntry e s)) ∨
    (s.T ≠ 2 ∧ romEntry rows s.T.toNat = none ∧
      instructionStep operand rows s = .refused (.noRomEntry s.T.toNat)) := by
  by_cases h2 : s.T = 2
  · exact .inl ⟨h2, by simp [instructionStep, h2]⟩
  · cases he : romEntry rows s.T.toNat with
    | none => exact .inr (.inr ⟨h2, rfl, by simp only [instructionStep, if_neg h2, he]⟩)
    | some e => exact .inr (.inl ⟨h2, e, rfl, by simp only [instructionStep, if_neg h2, he]⟩)

theorem instructionStep_at_T2 {operand : State → Host.Outcome State Fault Refusal} {rows : List RomEntry}
    {s : State} (h : s.T = 2) : instructionStep operand rows s = operand s := by
  simp [instructionStep, h]

/-- A state of the ROM is T3 or later, and within the variant's rows. -/
theorem romEntry_some {rows : List RomEntry} {t : Nat} {e : RomEntry} (h : romEntry rows t = some e) :
    3 ≤ t ∧ t ≤ 2 + rows.length ∧ e ∈ rows := by
  unfold romEntry at h
  split at h
  · cases h
  · obtain ⟨hl, he⟩ := List.getElem?_eq_some_iff.mp h
    exact ⟨by omega, by omega, he ▸ List.getElem_mem hl⟩

theorem romEntry_defined {rows : List RomEntry} {t : Nat} (h3 : 3 ≤ t) (hl : t ≤ 2 + rows.length) :
    ∃ e, romEntry rows t = some e := by
  unfold romEntry
  rw [if_neg (by omega)]
  exact ⟨_, List.getElem?_eq_getElem (by omega)⟩

/-- No micro-operation writes IR, T, assembled, PLEN or the trace (R72). -/
theorem MicroOp.apply_keeps (op : MicroOp) (s acc : State) :
    (op.apply s acc).IR = acc.IR ∧ (op.apply s acc).T = acc.T ∧ (op.apply s acc).assembled = acc.assembled ∧
      (op.apply s acc).PLEN = acc.PLEN ∧ (op.apply s acc).trace = acc.trace := by
  cases op <;> exact ⟨rfl, rfl, rfl, rfl, rfl⟩

theorem applyOps_keeps (ops : List MicroOp) (s : State) :
    (applyOps ops s).IR = s.IR ∧ (applyOps ops s).T = s.T ∧ (applyOps ops s).assembled = s.assembled ∧
      (applyOps ops s).PLEN = s.PLEN ∧ (applyOps ops s).trace = s.trace := by
  have key : ∀ acc : State, (ops.foldl (fun acc op => op.apply s acc) acc).IR = acc.IR ∧
      (ops.foldl (fun acc op => op.apply s acc) acc).T = acc.T ∧
      (ops.foldl (fun acc op => op.apply s acc) acc).assembled = acc.assembled ∧
      (ops.foldl (fun acc op => op.apply s acc) acc).PLEN = acc.PLEN ∧
      (ops.foldl (fun acc op => op.apply s acc) acc).trace = acc.trace := by
    induction ops with
    | nil => intro acc; exact ⟨rfl, rfl, rfl, rfl, rfl⟩
    | cons op ops ih =>
      intro acc
      have h := op.apply_keeps s acc
      simp only [List.foldl_cons, ih, h, and_self]
  exact key s

/-- One ROM entry keeps IR, assembled, PLEN and the trace. -/
theorem executeEntry_keeps (e : RomEntry) (s : State) :
    (executeEntry e s).IR = s.IR ∧ (executeEntry e s).assembled = s.assembled ∧
      (executeEntry e s).PLEN = s.PLEN ∧ (executeEntry e s).trace = s.trace := by
  have h := applyOps_keeps e.ops s
  unfold executeEntry
  split <;> simp [h]

/-- `T <- 0` after the terminal step, `T <- T + 1` otherwise (R70). -/
theorem executeEntry_T (e : RomEntry) (s : State) :
    (executeEntry e s).T = if e.last then 0 else s.T + 1 := by
  unfold executeEntry
  split <;> simp

/-! ### exec -/

/-- The operand form of an instruction. -/
def operandOf : Instr → State → Host.Outcome State Fault Refusal
  | .and ind a | .add ind a | .load ind a | .store ind a | .bun ind a | .bsa ind a | .isz ind a =>
    memoryOperand ind a
  | .io a | .nop a => fieldOperand a
  | i => fieldOperand i.field

/-- Every meaning is the micro-step of its operand form and its ROM rows. -/
theorem exec_eq (i : Instr) (s : State) : exec i s = instructionStep (operandOf i) (romRows i) s := by
  cases i <;> rfl

/-- Every operand form is the memory operand of some I bit and field. -/
theorem operandOf_eq (i : Instr) : ∃ ind, operandOf i = memoryOperand ind i.field := by
  cases i <;> first
    | exact ⟨_, rfl⟩
    | exact ⟨false, rfl⟩

/-- Everything `exec` can answer when it answers a next state. -/
theorem exec_next {i : Instr} {s t : State} (h : exec i s = .next t) :
    (s.T = 2 ∧ t = { s with AR := t.AR, T := s.T + 1 }) ∨
    (∃ e, romEntry (romRows i) s.T.toNat = some e ∧ t = executeEntry e s) := by
  rw [exec_eq] at h
  rcases instructionStep_cases (operandOf i) (romRows i) s with ⟨h2, he⟩ | ⟨-, e, hr, he⟩ | ⟨-, -, he⟩
  · obtain ⟨ind, ho⟩ := operandOf_eq i
    rw [he, ho] at h
    exact .inl ⟨h2, (memoryOperand_next h).1⟩
  · rw [he] at h; cases h
    exact .inr ⟨e, hr, rfl⟩
  · rw [he] at h; cases h

/-- `exec` keeps IR, assembled, PLEN and the trace. -/
theorem exec_keeps {i : Instr} {s t : State} (h : exec i s = .next t) :
    t.IR = s.IR ∧ t.assembled = s.assembled ∧ t.PLEN = s.PLEN ∧ t.trace = s.trace := by
  rcases exec_next h with ⟨-, ht⟩ | ⟨e, -, rfl⟩
  · rw [ht]; exact ⟨rfl, rfl, rfl, rfl⟩
  · exact executeEntry_keeps e s

/-- No variant has more than three execute states (R71). -/
theorem romRows_length_le (i : Instr) : (romRows i).length ≤ 3 := by
  cases i <;> simp [romRows]

theorem romRows_length_pos (i : Instr) : 1 ≤ (romRows i).length := by
  cases i <;> simp [romRows]

/-- A timing state is known by its number. -/
theorem timingState_eq_of_toNat {t : TimingState} {n : Nat} (h : t.toNat = n) : t = BitVec.ofNat 3 n := by
  apply BitVec.eq_of_toNat_eq
  rw [BitVec.toNat_ofNat, ← h, Nat.mod_eq_of_lt t.isLt]

/-- Everything `exec` can do when it answers a next state, by the timing state: T2 writes AR, and T3, T4, T5 are
the first, second and third ROM row. -/
theorem exec_next_by_state {i : Instr} {s t : State} (h : exec i s = .next t) :
    (s.T = 2 ∧ t = { s with AR := t.AR, T := s.T + 1 }) ∨
    (s.T = 3 ∧ ∃ e, (romRows i)[0]? = some e ∧ t = executeEntry e s) ∨
    (s.T = 4 ∧ ∃ e, (romRows i)[1]? = some e ∧ t = executeEntry e s) ∨
    (s.T = 5 ∧ ∃ e, (romRows i)[2]? = some e ∧ t = executeEntry e s) := by
  rcases exec_next h with h2 | ⟨e, he, rfl⟩
  · exact .inl h2
  · obtain ⟨h3, h5, -⟩ := romEntry_some he
    have hl := romRows_length_le i
    have hT : s.T.toNat = 3 ∨ s.T.toNat = 4 ∨ s.T.toNat = 5 := by omega
    unfold romEntry at he
    rw [if_neg (by omega)] at he
    rcases hT with hT | hT | hT <;> rw [hT] at he
    · exact .inr (.inl ⟨timingState_eq_of_toNat hT, e, he, rfl⟩)
    · exact .inr (.inr (.inl ⟨timingState_eq_of_toNat hT, e, he, rfl⟩))
    · exact .inr (.inr (.inr ⟨timingState_eq_of_toNat hT, e, he, rfl⟩))

/-- Everything `exec` can do when it answers an error: T2 of an indirect operand (R109). -/
theorem exec_fault {i : Instr} {s : State} {f : Fault} (h : exec i s = .fault f) :
    s.T = 2 ∧ operandOf i = memoryOperand true i.field ∧ 4095 < (s.mem.read i.field).toNat ∧
      f = .outOfRange (s.mem.read i.field).toNat := by
  rw [exec_eq] at h
  rcases instructionStep_cases (operandOf i) (romRows i) s with ⟨h2, he⟩ | ⟨-, e, hr, he⟩ | ⟨-, -, he⟩
  · obtain ⟨ind, ho⟩ := operandOf_eq i
    rw [he, ho] at h
    obtain ⟨rfl, hb, hf⟩ := memoryOperand_fault h
    exact ⟨h2, ho, hb, hf⟩
  · rw [he] at h; cases h
  · rw [he] at h; cases h

/-- A micro-operation keeps memory canonical. -/
theorem MicroOp.apply_mem_wf (op : MicroOp) {s acc : State} (h : s.mem.wf = true) (ha : acc.mem.wf = true) :
    (op.apply s acc).mem.wf = true := by
  cases op <;> first
    | exact ha
    | exact Memory.wf_write _ _ h

/-- One ROM entry keeps memory canonical. -/
theorem executeEntry_mem_wf (e : RomEntry) {s : State} (h : s.mem.wf = true) : (executeEntry e s).mem.wf = true := by
  have key : ∀ (ops : List MicroOp) (acc : State), acc.mem.wf = true →
      (ops.foldl (fun acc op => op.apply s acc) acc).mem.wf = true := by
    intro ops
    induction ops with
    | nil => exact fun _ ha => ha
    | cons op ops ih => exact fun acc ha => ih _ (op.apply_mem_wf h ha)
  unfold executeEntry
  split <;> exact key e.ops s h

end Sys2Proof.Machine
end

