-- ==== Sys2Proof/Laws/Cycle.lean ====
section
/-! SUPPORT. What one step of the block can do. -/

namespace Sys2Proof.Machine

/-- Everything `timingState` can answer when it answers a next state. -/
theorem timingState_next {s t : State} (h : timingState s = .next t) :
    (s.T = 0 ∧ t = addressState s) ∨ (s.T = 1 ∧ t = fetchState s) ∨
    (s.T ≠ 0 ∧ s.T ≠ 1 ∧ exec (decode s.IR) s = .next t) := by
  unfold timingState at h
  split at h
  · cases h; exact .inl ⟨‹_›, rfl⟩
  split at h
  · cases h; exact .inr (.inl ⟨‹_›, rfl⟩)
  · exact .inr (.inr ⟨‹_›, ‹_›, h⟩)

/-- A micro-step that answers a next state is its timing state, recorded in the trace (R65). -/
theorem cycleStep_next {s t : State} (h : cycleStep s = .next t) :
    ∃ s1, timingState s = .next s1 ∧ t = s1.record s.T (memoryReference s) := by
  unfold cycleStep at h
  cases he : timingState s with
  | next s1 => rw [he] at h; cases h; exact ⟨s1, rfl, rfl⟩
  | fault f => rw [he] at h; cases h
  | refused r => rw [he] at h; cases h

/-- Everything `step` can do when it answers a next state (R104). -/
theorem step_next {s t : State} (h : step s = .next t) :
    s.assembled = true ∧
      ((s.halted = true ∧ t = s) ∨
        (s.halted = false ∧ ∃ s1, timingState s = .next s1 ∧ t = s1.record s.T (memoryReference s))) := by
  unfold step microStep at h
  split at h
  · cases h
  rename_i ha
  refine ⟨by simpa using ha, ?_⟩
  split at h
  · cases h; exact .inl ⟨‹_›, rfl⟩
  · rename_i hh
    exact .inr ⟨by simpa using hh, cycleStep_next h⟩

/-- On an assembled block that is not halted, `step` is one micro-step (R104). -/
theorem step_running {s : State} (ha : s.assembled = true) (hh : s.halted = false) : step s = cycleStep s := by
  simp [step, microStep, ha, hh]

theorem step_unassembled {s : State} (ha : s.assembled = false) : step s = .fault .notAssembled := by
  simp [step, microStep, ha, raise]

theorem step_halted {s : State} (ha : s.assembled = true) (hh : s.halted = true) : step s = .next s := by
  simp [step, microStep, ha, hh]

/-- The T0 micro-step writes AR, T and halted only. -/
theorem addressState_eq (s : State) :
    addressState s = if s.PLEN.toNat ≤ s.PC.toNat then { s with halted := true, T := 0 }
      else { s with AR := s.PC, T := 1 } := rfl

/-- The T1 micro-step. -/
theorem fetchState_eq (s : State) :
    fetchState s = { s with IR := s.mem.read s.AR, PC := s.PC + 1, T := 2 } := rfl

/-- A step keeps `assembled` set. -/
theorem step_assembled {s t : State} (h : step s = .next t) : t.assembled = true := by
  obtain ⟨ha, ⟨-, rfl⟩ | ⟨-, s1, h1, rfl⟩⟩ := step_next h
  · exact ha
  · rw [State.record_assembled]
    rcases timingState_next h1 with ⟨-, rfl⟩ | ⟨-, rfl⟩ | ⟨-, -, hx⟩
    · rw [addressState_eq]; split <;> exact ha
    · exact ha
    · rw [(exec_keeps hx).2.1]; exact ha

/-- An error of an assembled block's step is the decoded instruction's own. -/
theorem step_fault {s : State} {f : Fault} (ha : s.assembled = true) (h : step s = .fault f) :
    s.halted = false ∧ exec (decode s.IR) s = .fault f := by
  by_cases hh : s.halted = true
  · rw [step_halted ha hh] at h; cases h
  have hh : s.halted = false := by simpa using hh
  refine ⟨hh, ?_⟩
  rw [step_running ha hh] at h
  unfold cycleStep timingState at h
  split at h
  · cases h
  · rename_i hx
    split at hx
    · cases hx
    split at hx
    · cases hx
    cases h
    exact hx
  · cases h

end Sys2Proof.Machine
end

