-- ==== Sys2Proof/Laws/Decode.lean ====
section
/-! SUPPORT. The fields of a word by arithmetic, the fields of a packed word, and the word of its fields. -/

namespace Sys2Proof

theorem iBit_eq (w : Word) : iBit w = decide (0x8000 ≤ w.toNat) := by
  have h := w.isLt
  simp only [iBit, BitVec.getLsbD, Nat.testBit_eq_decide_div_mod_eq]
  congr 1
  apply propext
  omega

theorem opField_toNat (w : Word) : (opField w).toNat = w.toNat / 0x1000 % 8 := by
  simp [opField, Nat.shiftRight_eq_div_pow]

theorem addrField_toNat (w : Word) : (addrField w).toNat = w.toNat % 0x1000 := by
  simp [addrField]

theorem packWord_toNat (i : Bool) (op : BitVec 3) (a : Address) :
    (packWord i op a).toNat = i.toNat * 0x8000 + op.toNat * 0x1000 + a.toNat := by
  have := op.isLt
  have := a.isLt
  have : i.toNat ≤ 1 := by cases i <;> decide
  simp only [packWord, BitVec.toNat_ofNat]
  omega

@[simp] theorem iBit_packWord (i : Bool) (op : BitVec 3) (a : Address) : iBit (packWord i op a) = i := by
  have := op.isLt
  have := a.isLt
  rw [iBit_eq, packWord_toNat]
  cases i <;> simp <;> omega

@[simp] theorem opField_packWord (i : Bool) (op : BitVec 3) (a : Address) : opField (packWord i op a) = op := by
  apply BitVec.eq_of_toNat_eq
  have := op.isLt
  have := a.isLt
  rw [opField_toNat, packWord_toNat]
  omega

@[simp] theorem addrField_packWord (i : Bool) (op : BitVec 3) (a : Address) :
    addrField (packWord i op a) = a := by
  apply BitVec.eq_of_toNat_eq
  have := a.isLt
  rw [addrField_toNat, packWord_toNat]
  omega

/-- A word is its three fields (R48). -/
theorem packWord_fields (w : Word) : packWord (iBit w) (opField w) (addrField w) = w := by
  apply BitVec.eq_of_toNat_eq
  have := w.isLt
  rw [packWord_toNat, opField_toNat, addrField_toNat, iBit_eq]
  by_cases h : 0x8000 ≤ w.toNat <;> simp [h] <;> omega

/-- A constant with the opcode bits, joined with a field, is the packed word of its parts (R48). -/
theorem ofNat_or_field {base : Nat} {i : Bool} {op : BitVec 3} (hb : base = i.toNat * 0x8000 + op.toNat * 0x1000)
    (a : Address) : (BitVec.ofNat 16 base ||| a.setWidth 16) = packWord i op a := by
  apply BitVec.eq_of_toNat_eq
  rw [packWord_toNat]
  have ha := a.isLt
  have := op.isLt
  have : i.toNat ≤ 1 := by cases i <;> decide
  have h2 : base = 2 ^ 12 * (i.toNat * 8 + op.toNat) := by omega
  rw [BitVec.toNat_or, BitVec.toNat_ofNat, BitVec.toNat_setWidth, Nat.mod_eq_of_lt (by omega),
    Nat.mod_eq_of_lt (by omega), h2, ← Nat.two_pow_add_eq_or_of_lt ha]
  omega

/-- The eight opcodes. -/
theorem opcode_eq_seven {o : BitVec 3} (h0 : o ≠ 0) (h1 : o ≠ 1) (h2 : o ≠ 2) (h3 : o ≠ 3) (h4 : o ≠ 4)
    (h5 : o ≠ 5) (h6 : o ≠ 6) : o = 7 := by
  bv_omega

/-- What a register-reference word decodes to has that word's parts (R53). -/
theorem decodeRegisterReference_parts (a : Address) :
    (decodeRegisterReference a).WellFormed = true ∧ (decodeRegisterReference a).indirectBit = false ∧
      (decodeRegisterReference a).opcode = 7 ∧ (decodeRegisterReference a).field = a := by
  unfold decodeRegisterReference
  repeat' split
  all_goals simp_all [Instr.opcode, Instr.indirectBit, Instr.field, Instr.WellFormed, oneHotFields]

/-- What a word decodes to has that word's parts (R52, R53). -/
theorem decode_parts (w : Word) :
    (decode w).WellFormed = true ∧ (decode w).indirectBit = iBit w ∧ (decode w).opcode = opField w ∧
      (decode w).field = addrField w := by
  have hr := decodeRegisterReference_parts (addrField w)
  unfold decode
  simp only
  split
  · exact ⟨rfl, rfl, Eq.symm ‹_›, rfl⟩
  split
  · exact ⟨rfl, rfl, Eq.symm ‹_›, rfl⟩
  split
  · exact ⟨rfl, rfl, Eq.symm ‹_›, rfl⟩
  split
  · exact ⟨rfl, rfl, Eq.symm ‹_›, rfl⟩
  split
  · exact ⟨rfl, rfl, Eq.symm ‹_›, rfl⟩
  split
  · exact ⟨rfl, rfl, Eq.symm ‹_›, rfl⟩
  split
  · exact ⟨rfl, rfl, Eq.symm ‹_›, rfl⟩
  have h7 : opField w = 7 := opcode_eq_seven ‹_› ‹_› ‹_› ‹_› ‹_› ‹_› ‹_›
  split
  · exact ⟨rfl, Eq.symm ‹_›, h7.symm, rfl⟩
  · exact ⟨hr.1, hr.2.1.trans (Bool.eq_false_iff.mpr ‹_›).symm, hr.2.2.1.trans h7.symm, hr.2.2.2⟩

end Sys2Proof
end

