-- ==== Sys2Proof/Laws/HostOps.lean ====
section
/-! SUPPORT. What the host's operations can do, one lemma per operation or loop. -/

namespace Sys2Proof.Machine

/-- `hostStep` is `step` with the state kept on an error. -/
theorem hostStep_state (s : State) :
    (hostStep s).state = match step s with
      | .next t => t
      | .fault _ => s
      | .refused _ => s := by
  unfold hostStep
  by_cases ha : s.assembled = false
  · simp [ha, step_unassembled ha]
  · have ha' : s.assembled = true := by simpa using ha
    by_cases hh : s.halted = true
    · simp [ha', hh, step_halted ha' hh]
    · cases he : step s <;> simp [ha', hh]

/-- The image of a program lists its nonzero words in order (R101). -/
theorem imageFrom_sorted {k : Nat} {ws : List Word} (h : k + ws.length ≤ Config.memWords) :
    Memory.sortedFrom k (imageFrom k ws) = true := by
  induction ws generalizing k with
  | nil => rfl
  | cons w ws ih =>
    have hl : k + 1 + ws.length ≤ Config.memWords := by simp only [List.length_cons] at h; omega
    unfold imageFrom
    split
    · exact Memory.sortedFrom_mono (ih hl) (by omega)
    · exact Memory.sortedFrom_cons.mpr ⟨le_refl _, by omega, ‹_›, ih hl⟩

theorem imageFrom_get_lt {k a : Nat} (ws : List Word) (h : a < k) :
    Memory.get (imageFrom k ws) a = Config.initialCell := by
  induction ws generalizing k with
  | nil => rfl
  | cons w ws ih =>
    unfold imageFrom
    split
    · exact ih (by omega)
    · rw [Memory.get_cons, if_neg (by omega)]; exact ih (by omega)

/-- Word `n` of a program is in cell `k + n`, and the cells past it hold the initial word (R101). -/
theorem imageFrom_get (k n : Nat) (ws : List Word) :
    Memory.get (imageFrom k ws) (k + n) = ws.getD n Config.initialCell := by
  induction ws generalizing k n with
  | nil => simp [imageFrom]
  | cons w ws ih =>
    cases n with
    | zero =>
      unfold imageFrom
      split
      · rw [imageFrom_get_lt ws (by omega)]; simp_all
      · simp [Memory.get_cons]
    | succ n =>
      have := ih (k + 1) n
      rw [show k + 1 + n = k + (n + 1) by omega] at this
      unfold imageFrom
      split
      · simpa using this
      · rw [Memory.get_cons, if_neg (by omega)]; simpa using this

/-- The assembler never yields more words than there are cells (R61 condition 8). -/
theorem assembleFrom_length {k : Nat} {lines : List String} {ws : List Word}
    (h : assembleFrom k lines = .ok ws) :
    ws.length = lines.length ∧ (lines ≠ [] → k + lines.length ≤ Config.memWords + 1) := by
  induction lines generalizing k ws with
  | nil => simp only [assembleFrom] at h; cases h; simp
  | cons line rest ih =>
    unfold assembleFrom at h
    split at h
    · cases h
    split at h
    · cases h
    split at h
    · rename_i ws' hr
      cases h
      obtain ⟨h1, h2⟩ := ih hr
      refine ⟨by simp [h1], fun _ => ?_⟩
      by_cases hn : rest = []
      · subst hn; simp; omega
      · have := h2 hn; simp only [List.length_cons]; omega
    · cases h

/-- Every host operation that a query is leaves the state as it is (R103). -/
theorem queries_keep (s : State) :
    HostOp.memoryContents.after s = s ∧ HostOp.registerSnapshot.after s = s ∧ HostOp.trace.after s = s :=
  ⟨rfl, rfl, rfl⟩

/-- The writes of `writeMemory` (R102). -/
theorem writeMemory_ok {a : Nat} (w : Nat) (s : State) (h : a < Config.memWords) :
    writeMemory a w s = ⟨{ s with mem := s.mem.put a (BitVec.ofNat 16 w) }, .ok ()⟩ := by
  simp [writeMemory, memWrite, h, State.setMem]

theorem writeMemory_bad {a : Nat} (w : Nat) (s : State) (h : Config.memWords ≤ a) :
    writeMemory a w s = ⟨s, .err (.outOfRange a)⟩ := by
  simp [writeMemory, memWrite, Nat.not_lt.mpr h]

/-- One turn of the `runInstruction` loop. -/
theorem runInstructionFrom_next {fuel k : Nat} {s t : State} (h : step s = .next t) :
    runInstructionFrom (fuel + 1) k s =
      if t.halted ∨ t.T = 0 then ⟨t, .ok (k + 1)⟩ else runInstructionFrom fuel (k + 1) t := by
  simp [runInstructionFrom, h]

theorem runInstructionFrom_fault {fuel k : Nat} {s : State} {f : Fault} (h : step s = .fault f) :
    runInstructionFrom (fuel + 1) k s = ⟨s, .err f⟩ := by
  simp [runInstructionFrom, h]

/-- One turn of the `runToHalt` loop. -/
theorem runToHaltFrom_next {left k : Nat} {s t : State} (hh : s.halted = false) (h : step s = .next t) :
    runToHaltFrom (left + 1) k s = runToHaltFrom left (k + 1) t := by
  simp [runToHaltFrom, hh, h]

theorem runToHaltFrom_halted {left k : Nat} {s : State} (hh : s.halted = true) :
    runToHaltFrom left k s = ⟨s, .ok k⟩ := by
  cases left <;> simp [runToHaltFrom, hh]

/-- A property that a micro-step keeps is kept by the loop of `runInstruction`. -/
theorem runInstructionFrom_keeps {P : State → Prop} (hstep : ∀ s t, P s → step s = .next t → P t) (fuel k : Nat)
    {s : State} (h : P s) : P (runInstructionFrom fuel k s).state := by
  induction fuel generalizing k s with
  | zero => exact h
  | succ fuel ih =>
    cases he : step s with
    | next t =>
      rw [runInstructionFrom_next he]
      split
      · exact hstep s t h he
      · exact ih _ (hstep s t h he)
    | fault f => rw [runInstructionFrom_fault he]; exact h
    | refused r => simpa [runInstructionFrom, he] using h

/-- A property that a micro-step keeps is kept by the loop of `runToHalt`. -/
theorem runToHaltFrom_keeps {P : State → Prop} (hstep : ∀ s t, P s → step s = .next t → P t) (left k : Nat)
    {s : State} (h : P s) : P (runToHaltFrom left k s).state := by
  induction left generalizing k s with
  | zero => unfold runToHaltFrom; split <;> exact h
  | succ left ih =>
    by_cases hh : s.halted = true
    · rw [runToHaltFrom_halted hh]; exact h
    have hh : s.halted = false := by simpa using hh
    cases he : step s with
    | next t => rw [runToHaltFrom_next hh he]; exact ih _ (hstep s t h he)
    | fault f => simpa [runToHaltFrom, hh, he] using h
    | refused r => simpa [runToHaltFrom, hh, he] using h

/-- A property that a micro-step, the load of a program, the write of a cell and `reset()` keep is kept by every
operation of the host. -/
theorem HostOp.after_keeps {P : State → Prop}
    (hstep : ∀ s t, P s → Sys2Proof.Machine.step s = .next t → P t)
    (hload : ∀ (ws : List Word) s, ws.length ≤ Config.memWords → P s → P (loadProgram ws s))
    (hwrite : ∀ a v s, a < Config.memWords → P s → P { s with mem := s.mem.put a v })
    (hreset : ∀ s, P s → P (hostReset s)) (o : HostOp) {s : State} (h : P s) : P (o.after s) := by
  cases o with
  | assemble lines =>
    show P (Sys2Proof.Machine.assemble lines s).state
    unfold Sys2Proof.Machine.assemble
    cases he : assembleLines lines with
    | error k => exact h
    | ok ws =>
      refine hload ws s ?_ h
      obtain ⟨h1, h2⟩ := assembleFrom_length he
      by_cases hn : lines = []
      · simp [h1, hn]
      · have := h2 hn; omega
  | writeMemory a w =>
    show P (Sys2Proof.Machine.writeMemory a w s).state
    by_cases ha : a < Config.memWords
    · rw [writeMemory_ok _ _ ha]; exact hwrite a _ s ha h
    · rw [writeMemory_bad _ _ (by omega)]; exact h
  | memoryContents => exact h
  | registerSnapshot => exact h
  | trace => exact h
  | step =>
    show P (hostStep s).state
    rw [hostStep_state]
    cases he : Sys2Proof.Machine.step s with
    | next t => exact hstep s t h he
    | fault f => exact h
    | refused r => exact h
  | runInstruction =>
    show P (Sys2Proof.Machine.runInstruction s).state
    unfold Sys2Proof.Machine.runInstruction
    split
    · exact h
    split
    · exact h
    · exact runInstructionFrom_keeps hstep _ _ h
  | runToHalt n =>
    show P (Sys2Proof.Machine.runToHalt n s).state
    unfold Sys2Proof.Machine.runToHalt
    split
    · exact h
    · exact runToHaltFrom_keeps hstep _ _ h
  | reset => exact hreset s h

/-- A property that holds at session start and that every operation keeps holds of every reachable state (R30). -/
theorem Reachable.holds {P : State → Prop} (hstart : P State.reset) (hop : ∀ (o : HostOp) s, P s → P (o.after s))
    {s : State} (h : Reachable s) : P s := by
  induction h with
  | start => exact hstart
  | op o s _ ih => exact hop o s ih

end Sys2Proof.Machine
end

