-- ==== Sys2Proof/Laws/PerInstr.lean ====
section
/-! SUPPORT. Statements about every instruction as syntax, one lemma per constructor. -/

namespace Sys2Proof.Laws.EncodedFields

/-- The word of an instruction has the instruction's I bit, opcode and ADDR field (R48, R53). -/
def Statement (i : Instr) : Prop :=
  iBit (encode i) = i.indirectBit ∧ opField (encode i) = i.opcode ∧ addrField (encode i) = i.field

/-- It holds of any term, since the word is packed from those three. -/
theorem of_pack (i : Instr) : Statement i := by
  simp [Statement, encode]

theorem and (ind : Bool) (a : Address) : Statement (.and ind a) := of_pack _
theorem add (ind : Bool) (a : Address) : Statement (.add ind a) := of_pack _
theorem load (ind : Bool) (a : Address) : Statement (.load ind a) := of_pack _
theorem store (ind : Bool) (a : Address) : Statement (.store ind a) := of_pack _
theorem bun (ind : Bool) (a : Address) : Statement (.bun ind a) := of_pack _
theorem bsa (ind : Bool) (a : Address) : Statement (.bsa ind a) := of_pack _
theorem isz (ind : Bool) (a : Address) : Statement (.isz ind a) := of_pack _
theorem cla : Statement .cla := of_pack _
theorem cle : Statement .cle := of_pack _
theorem cma : Statement .cma := of_pack _
theorem cme : Statement .cme := of_pack _
theorem cir : Statement .cir := of_pack _
theorem cil : Statement .cil := of_pack _
theorem inc : Statement .inc := of_pack _
theorem spa : Statement .spa := of_pack _
theorem sna : Statement .sna := of_pack _
theorem sza : Statement .sza := of_pack _
theorem sze : Statement .sze := of_pack _
theorem halt : Statement .halt := of_pack _
theorem io (field : Address) : Statement (.io field) := of_pack _
theorem nop (field : Address) : Statement (.nop field) := of_pack _

end Sys2Proof.Laws.EncodedFields
end

