-- ==== Sys2Proof/Tests/Slice0.lean ====
section
/-! SUPPORT. Tests on the worked values of 95_test_vectors.md, each one step or one word, and for each statement
with hypotheses a concrete state and operands that meet them. -/

namespace Sys2Proof.Tests

open Sys2Proof.Machine Sys2Proof.Claims

/-- An assembled block of full program length in timing state `t` with `ir` fetched. -/
def blockAt (t : TimingState) (ir : Word) : State :=
  { State.reset with assembled := true, PLEN := 4096, T := t, IR := ir, PC := 0x011 }

/-- A part of the next state, where there is one. -/
def after {α : Type} (view : State → α) : Host.Outcome State Fault Refusal → Option α
  | .next t => some (view t)
  | .fault _ => none
  | .refused _ => none

/-- The error, where there is one. -/
def error : Host.Outcome State Fault Refusal → Option Fault
  | .next _ => none
  | .fault f => some f
  | .refused _ => none

/-! ### WellFormed -/

/-- The one check of `WellFormed`: a NOP that carries an operation field of R53 stands for no word of its own. -/
theorem test_wellFormed_refuses_one_hot_nop :
    (Instr.nop 0x800).WellFormed = false ∧ (Instr.nop 0x001).WellFormed = false ∧
    oneHotFields.all (fun a => !(Instr.nop a).WellFormed) = true := by decide

theorem test_wellFormed_accepts :
    (Instr.nop 0x000).WellFormed = true ∧ (Instr.nop 0x801).WellFormed = true ∧ Instr.cla.WellFormed = true := by
  decide

/-! ### Decode: the words of 30_encoding.md R53 and 95_test_vectors.md 2.1 -/

theorem test_decode_and : decode 0x0010 = .and false 0x010 ∧ decode 0x8FFF = .and true 0xFFF := by decide
theorem test_decode_add : decode 0x1234 = .add false 0x234 ∧ decode 0x9010 = .add true 0x010 := by decide
theorem test_decode_load : decode 0x2005 = .load false 0x005 ∧ decode 0xA040 = .load true 0x040 := by decide
theorem test_decode_store : decode 0x3007 = .store false 0x007 ∧ decode 0xBFFF = .store true 0xFFF := by decide
theorem test_decode_bun : decode 0x4000 = .bun false 0x000 ∧ decode 0xC004 = .bun true 0x004 := by decide
theorem test_decode_bsa : decode 0x5020 = .bsa false 0x020 ∧ decode 0xD123 = .bsa true 0x123 := by decide
theorem test_decode_isz : decode 0x6ABC = .isz false 0xABC ∧ decode 0xE001 = .isz true 0x001 := by decide
theorem test_decode_cla : decode 0x7800 = .cla := by decide
theorem test_decode_cle : decode 0x7400 = .cle := by decide
theorem test_decode_cma : decode 0x7200 = .cma := by decide
theorem test_decode_cme : decode 0x7100 = .cme := by decide
theorem test_decode_cir : decode 0x7080 = .cir := by decide
theorem test_decode_cil : decode 0x7040 = .cil := by decide
theorem test_decode_inc : decode 0x7020 = .inc := by decide
theorem test_decode_spa : decode 0x7010 = .spa := by decide
theorem test_decode_sna : decode 0x7008 = .sna := by decide
theorem test_decode_sza : decode 0x7004 = .sza := by decide
theorem test_decode_sze : decode 0x7002 = .sze := by decide
theorem test_decode_halt : decode 0x7001 = .halt := by decide
theorem test_decode_io : decode 0xF000 = .io 0x000 ∧ decode 0xF800 = .io 0x800 ∧ decode 0xFFFF = .io 0xFFF := by decide
theorem test_decode_nop :
    decode 0x7000 = .nop 0x000 ∧ decode 0x7003 = .nop 0x003 ∧ decode 0x7801 = .nop 0x801 ∧
    decode 0x7FFF = .nop 0xFFF := by decide

theorem test_decodeTableWord :
    decodeTableWord 16 0x7801 = some (.nop 0x801) ∧ decodeTableWord 16 0x8FFF = some (.and true 0xFFF) ∧
    decodeTableWord 17 0x8FFF = none ∧ decodeTableWord 16 0x10000 = none := by decide

/-! ### The memory-reference instructions (95_test_vectors.md 2.3) -/

/-- MR1. -/
theorem test_and_T4 :
    after (fun t => (t.AC, t.E, t.T)) (exec (.and false 0x010) { blockAt 4 0x0010 with AC := 0x0F0F, DR := 0x00FF, E := 1 }) =
      some (0x000F, 1, 0) := by decide

/-- MR27. -/
theorem test_and_indirect_out_of_range :
    error (exec (.and true 0xFFF) { blockAt 2 0x8FFF with mem := [(0xFFF, 0xFFFF)] }) = some (.outOfRange 0xFFFF) := by
  decide

/-- MR4. -/
theorem test_add_carry :
    after (fun t => (t.AC, t.E)) (exec (.add false 0) { blockAt 4 0x1000 with AC := 0xFFFF, DR := 0x0001 }) =
      some (0x0000, 1) := by decide

/-- MR5: the incoming E is not added. -/
theorem test_add_sign_without_carry :
    after (fun t => (t.AC, t.E)) (exec (.add false 0) { blockAt 4 0x1000 with AC := 0x7FFF, DR := 0x0001, E := 1 }) =
      some (0x8000, 0) := by decide

/-- MR10, its T3. -/
theorem test_load_T3 :
    after (fun t => (t.AC, t.DR, t.T)) (exec (.load false 5) { blockAt 3 0x2005 with AR := 5, mem := [(5, 0x0003)] }) =
      some (0x0000, 0x0003, 4) := by decide

/-- MR25: AR after T2 of an indirect LOAD. -/
theorem test_load_indirect_T2 :
    after (fun t => (t.AR, t.T)) (exec (.load true 0x040) { blockAt 2 0xA040 with mem := [(0x040, 0x0123), (0x123, 0x5555)] }) =
      some (0x123, 3) := by decide

/-- MR12. -/
theorem test_store_T3 :
    after (fun t => (t.mem, t.AC, t.T)) (exec (.store false 7) { blockAt 3 0x3007 with AR := 7, AC := 0x0007 }) =
      some ([(7, 0x0007)], 0x0007, 0) := by decide

/-- H4's store of zero over a listed cell: the canonical form keeps no zero word. -/
theorem test_store_zero_unlists :
    after (fun t => t.mem) (exec (.store false 7) { blockAt 3 0x3007 with AR := 7, mem := [(6, 1), (7, 2), (8, 3)] }) =
      some [(6, 1), (8, 3)] := by decide

/-- MR14. -/
theorem test_bun_T3 :
    after (fun t => (t.PC, t.T)) (exec (.bun false 0x00A) { blockAt 3 0x400A with AR := 0x00A, PC := 0x003 }) =
      some (0x00A, 0) := by decide

/-- MR17. -/
theorem test_bsa_T3 :
    after (fun t => (t.mem, t.AR, t.PC, t.T)) (exec (.bsa false 0x020) { blockAt 3 0x5020 with AR := 0x020, PC := 0x005 }) =
      some ([(0x020, 0x0005)], 0x021, 0x005, 4) := by decide

/-- MR18: AR wraps. -/
theorem test_bsa_wraps :
    after (fun t => (t.mem, t.AR)) (exec (.bsa false 0xFFF) { blockAt 3 0x5FFF with AR := 0xFFF, PC := 0x011 }) =
      some ([(0xFFF, 0x0011)], 0x000) := by decide

/-- MR20 at T5: DR is the incremented word, which is zero. -/
theorem test_isz_skips :
    after (fun t => (t.mem, t.PC, t.T)) (exec (.isz false 0x030)
      { blockAt 5 0x6030 with AR := 0x030, DR := 0x0000, PC := 0x003, mem := [(0x030, 0xFFFF)] }) =
      some ([], 0x004, 0) := by decide

/-- MR21 at T5. -/
theorem test_isz_does_not_skip :
    after (fun t => (t.mem, t.PC)) (exec (.isz false 0x030)
      { blockAt 5 0x6030 with AR := 0x030, DR := 0x0006, PC := 0x003, mem := [(0x030, 0x0005)] }) =
      some ([(0x030, 0x0006)], 0x003) := by decide

/-! ### The register-reference instructions (95_test_vectors.md 2.4), IO and NOP (2.5) -/

/-- RR1. -/
theorem test_cla : after (fun t => (t.AC, t.E, t.PC)) (exec .cla { blockAt 3 0x7800 with AC := 0x1234, E := 1 }) =
    some (0x0000, 1, 0x011) := by decide
/-- RR2. -/
theorem test_cle : after (fun t => (t.AC, t.E, t.PC)) (exec .cle { blockAt 3 0x7400 with AC := 0x1234, E := 1 }) =
    some (0x1234, 0, 0x011) := by decide
/-- RR4. -/
theorem test_cma : after (fun t => (t.AC, t.E)) (exec .cma { blockAt 3 0x7200 with AC := 0xA5A5, E := 1 }) =
    some (0x5A5A, 1) := by decide
/-- RR5 and RR6. -/
theorem test_cme : after (fun t => t.E) (exec .cme (blockAt 3 0x7100)) = some 1 ∧
    after (fun t => t.E) (exec .cme { blockAt 3 0x7100 with E := 1 }) = some 0 := by decide
/-- RR7. -/
theorem test_cir_out_of_AC : after (fun t => (t.AC, t.E)) (exec .cir { blockAt 3 0x7080 with AC := 0x0001 }) =
    some (0x0000, 1) := by decide
/-- RR8. -/
theorem test_cir_out_of_E : after (fun t => (t.AC, t.E)) (exec .cir { blockAt 3 0x7080 with AC := 0x8000, E := 1 }) =
    some (0xC000, 0) := by decide
/-- RR11. -/
theorem test_cil_out_of_AC : after (fun t => (t.AC, t.E)) (exec .cil { blockAt 3 0x7040 with AC := 0x8001 }) =
    some (0x0002, 1) := by decide
/-- RR12. -/
theorem test_cil_out_of_E : after (fun t => (t.AC, t.E)) (exec .cil { blockAt 3 0x7040 with AC := 0x0000, E := 1 }) =
    some (0x0001, 0) := by decide
/-- RR16: no carry into E. -/
theorem test_inc : after (fun t => (t.AC, t.E)) (exec .inc { blockAt 3 0x7020 with AC := 0xFFFF }) =
    some (0x0000, 0) := by decide
/-- RR18 and RR19. -/
theorem test_spa_skips : after (fun t => t.PC) (exec .spa (blockAt 3 0x7010)) = some 0x012 ∧
    after (fun t => t.PC) (exec .spa { blockAt 3 0x7010 with AC := 0x7FFF }) = some 0x012 := by decide
/-- RR20, and RR30's wrap of PC. -/
theorem test_spa_negative_and_wrap :
    after (fun t => t.PC) (exec .spa { blockAt 3 0x7010 with AC := 0x8000 }) = some 0x011 ∧
    after (fun t => t.PC) (exec .spa { blockAt 3 0x7010 with PC := 0xFFF }) = some 0x000 := by decide
/-- RR21. -/
theorem test_sna_skips : after (fun t => t.PC) (exec .sna { blockAt 3 0x7008 with AC := 0x8000 }) = some 0x012 := by
  decide
/-- RR22 and RR23. -/
theorem test_sna_does_not_skip :
    after (fun t => t.PC) (exec .sna { blockAt 3 0x7008 with AC := 0x7FFF }) = some 0x011 ∧
    after (fun t => t.PC) (exec .sna (blockAt 3 0x7008)) = some 0x011 := by decide
/-- RR24 and RR25. -/
theorem test_sza : after (fun t => t.PC) (exec .sza (blockAt 3 0x7004)) = some 0x012 ∧
    after (fun t => t.PC) (exec .sza { blockAt 3 0x7004 with AC := 0x8000 }) = some 0x011 := by decide
/-- RR26 and RR27. -/
theorem test_sze : after (fun t => t.PC) (exec .sze (blockAt 3 0x7002)) = some 0x012 ∧
    after (fun t => t.PC) (exec .sze { blockAt 3 0x7002 with E := 1 }) = some 0x011 := by decide
/-- RR28. -/
theorem test_halt : after (fun t => (t.halted, t.T, t.PC)) (exec .halt { blockAt 3 0x7001 with AR := 1 }) =
    some (true, 0, 0x011) := by decide
/-- IO2: bit 15 makes no indirect read, so the word at the field's address is not looked at. -/
theorem test_io_T2_reads_nothing :
    after (fun t => (t.AR, t.T)) (exec (.io 0xFFF) { blockAt 2 0xFFFF with mem := [(0xFFF, 0xFFFF)] }) =
      some (0xFFF, 3) := by decide
/-- IO1. -/
theorem test_io_T3 : after (fun t => (t.AC, t.E, t.T)) (exec (.io 0x800) { blockAt 3 0xF800 with AC := 0x1234, E := 1 }) =
    some (0x1234, 1, 0) := by decide
/-- IO4: neither CLA nor HALT. -/
theorem test_nop_T3 :
    after (fun t => (t.AC, t.halted, t.T)) (exec (.nop 0x801) { blockAt 3 0x7801 with AC := 0x1234 }) =
      some (0x1234, false, 0) := by decide

/-! ### The cycle and the host's operations (95_test_vectors.md W4, H1 to H16) -/

/-- H7: a program of no lines halts at its first T0. -/
theorem test_T0_halts :
    after (fun t => (t.halted, t.T, t.PC, t.AR)) (step { blockAt 0 0 with PLEN := 0, PC := 0 }) =
      some (true, 0, 0x000, 0x000) := by decide

/-- W4: PC wraps at the fetch of the last cell. -/
theorem test_T1_wraps :
    after (fun t => (t.IR, t.PC, t.T)) (step { blockAt 1 0 with AR := 0xFFF, PC := 0xFFF, mem := [(0xFFF, 0x7020)] }) =
      some (0x7020, 0x000, 2) := by decide

/-- W5: an indirect T2 records the pointer's address. -/
theorem test_T2_records_pointer :
    after (fun t => (t.trace.map TraceEntry.label, t.trace.map TraceEntry.memRef))
      (step { blockAt 2 0xA040 with mem := [(0x040, 0x0123)] }) = some (["T2"], [some 0x040]) := by decide

/-- MR26. -/
theorem test_T2_out_of_range :
    error (step { blockAt 2 0xA040 with mem := [(0x040, 0x1123)] }) = some (.outOfRange 0x1123) := by decide

/-- H1. -/
theorem test_step_before_assemble : hostStep State.reset = ⟨State.reset, .err .notAssembled⟩ := by decide
/-- H5. -/
theorem test_writeMemory_past_the_end :
    writeMemory 4096 1 State.reset = ⟨State.reset, .err (.outOfRange 4096)⟩ := by decide
/-- H6: the word is masked. -/
theorem test_writeMemory_masks : (writeMemory 5 0x1FFFF State.reset).state.mem = [(5, 0xFFFF)] := by decide
/-- W1: the words of the document's program. -/
theorem test_assemble_scenario :
    (assemble ["LOAD 5", "ADD 6", "STORE 7", "HALT"] State.reset).state.mem =
      [(0, 0x2005), (1, 0x1006), (2, 0x3007), (3, 0x7001)] := by decide
/-- H12. -/
theorem test_step_of_a_halted_block :
    hostStep { blockAt 0 0x7001 with halted := true } = ⟨{ blockAt 0 0x7001 with halted := true }, .ok ⟨0, true, true⟩⟩ := by
  decide

/-- Accepted lines of 2.2. -/
theorem test_assembler_accepts :
    encodeLine "lda 5" = some 0x2005 ∧ encodeLine "ADD 0x10 I" = some 0x9010 ∧
    encodeLine "  BUN   4095  " = some 0x4FFF ∧ encodeLine "ADD 007" = some 0x1007 ∧
    encodeLine "STA 0XfF I" = some 0xB0FF ∧ encodeLine "and 0 i" = some 0x8000 ∧
    encodeLine "hlt" = some 0x7001 ∧ encodeLine "\tSZA" = some 0x7004 := by decide

/-- Rejected lines of 2.2, one or more for each condition of R61. -/
theorem test_assembler_rejects :
    encodeLine "   " = none ∧ encodeLine "INP" = none ∧ encodeLine "LOAD" = none ∧ encodeLine "LOAD 4096" = none ∧
    encodeLine "ADD -1" = none ∧ encodeLine "ADD 0x" = none ∧ encodeLine "ADD 5 J" = none ∧
    encodeLine "ADD 5 I X" = none ∧ encodeLine "CLA 5" = none ∧ encodeLine "HALT I" = none := by decide

/-! ### Placing an instruction -/

theorem test_withFetchWord_runs_halt :
    after (fun t => (t.halted, t.trace.map TraceEntry.label)) (step (State.reset.withFetchWord 16 0x7001)) =
      some (true, ["T3"]) := by decide

theorem test_withFetchWord_places_the_word :
    (State.reset.withFetchWord 16 0x3FFF).mem = [(0, 0x3FFF)] ∧ (State.reset.withFetchWord 16 0x3FFF).IR = 0x3FFF ∧
    (State.reset.withFetchWord 16 0x3FFF).AR = 0xFFF ∧ (State.reset.withFetchWord 16 0x3FFF).T = 3 := by decide

/-! ### Witnesses: for each statement with hypotheses, a state and operands that meet them -/

/-- A legal block in T0 of a program. -/
theorem blockAt_0_legal : (blockAt 0 0).Legal := by
  constructor <;> simp [blockAt, State.reset]

/-- An indirect `LOAD 0x40 I` in T2 whose pointer cell holds `v` (MR25, MR26). -/
def indirectAt2 (v : Word) : State := { blockAt 2 0xA040 with mem := Memory.put [] 0x040 v }

theorem witness_DecodeOfEncodeIsIdentity :
    (Instr.nop 0x801).WellFormed = true ∧ (Instr.isz true 0xFFF).WellFormed = true ∧
    Instr.halt.WellFormed = true ∧ (Instr.io 0xFFF).WellFormed = true := by decide

theorem witness_DecoderFollowsOpcodeMap : bitsSet 0x000 ≠ 1 ∧ bitsSet 0x003 ≠ 1 ∧ bitsSet 0xFFF ≠ 1 := by decide

theorem witness_AssembledLineDecodesToItsInstruction :
    encodeText "ISZ 0xFFF".toList = some 0x6FFF ∧ encodeText "ADD 0x10 I".toList = some 0x9010 ∧
    encodeText "cir".toList = some 0x7080 := by decide

/-- A bad line inside the source, a line past the last cell, and sources that are not bad. -/
theorem witness_SyntaxErrorNamesFirstBadLine :
    assembleLines ["CLA", "", "FOO"] = .error 2 ∧ assembleFrom 4097 ["CLA"] = .error 4097 ∧
    assembleFrom 4096 ["CLA"] = .ok [0x7800] ∧ assembleLines [] = .ok [] :=
  ⟨rfl, rfl, rfl, rfl⟩

theorem witness_MemoryPrimitives :
    Memory.wf [(0, 1), (4095, 2)] = true ∧ (4095 : Nat) ≤ 4095 ∧ (4095 : Nat) < 4096 := by decide

theorem witness_AddressStateLoadsArOrHalts :
    ({ blockAt 0 0 with PLEN := 0x011 } : State).Running 0 ∧
    ({ blockAt 0 0 with PLEN := 0x011 } : State).PLEN.toNat ≤ (blockAt 0 0).PC.toNat ∧
    ({ blockAt 0 0 with PLEN := 0x012 } : State).Running 0 ∧
    (blockAt 0 0).PC.toNat < ({ blockAt 0 0 with PLEN := 0x012 } : State).PLEN.toNat :=
  ⟨⟨rfl, rfl, rfl⟩, by decide, ⟨rfl, rfl, rfl⟩, by decide⟩

theorem witness_FetchStateLoadsIrAndAdvancesPc : ({ blockAt 1 0 with PC := 0xFFF } : State).Running 1 := ⟨rfl, rfl, rfl⟩

/-- The indirect word in range and just past it, and three words with no indirect read. -/
theorem witness_DecodeStateResolvesAddress :
    (indirectAt2 0x0FFF).Running 2 ∧ (opField (indirectAt2 0).IR ≠ 7 ∧ iBit (indirectAt2 0).IR = true) ∧
    ((indirectAt2 0x0FFF).mem.read (addrField (indirectAt2 0).IR)).toNat ≤ 4095 ∧
    4095 < ((indirectAt2 0x1000).mem.read (addrField (indirectAt2 0).IR)).toNat ∧
    ¬ (opField 0x2040 ≠ 7 ∧ iBit 0x2040 = true) ∧ ¬ (opField 0xF040 ≠ 7 ∧ iBit 0xF040 = true) ∧
    ¬ (opField 0x7801 ≠ 7 ∧ iBit 0x7801 = true) :=
  ⟨⟨rfl, rfl, rfl⟩, by decide, by decide, by decide, by decide, by decide, by decide⟩

theorem witness_StepRunsDecodedInstruction :
    (indirectAt2 5).assembled = true ∧ (indirectAt2 5).halted = false ∧ 2 ≤ (indirectAt2 5).T.toNat ∧
    (blockAt 0 0).AtFetch :=
  ⟨rfl, rfl, by decide, ⟨rfl, rfl, rfl⟩, by decide⟩

theorem witness_FetchAdvancesPcByOne :
    (blockAt 0 0).AtFetch ∧ ({ blockAt 0 0 with PC := 0xFFF } : State).AtFetch :=
  ⟨⟨⟨rfl, rfl, rfl⟩, by decide⟩, ⟨rfl, rfl, rfl⟩, by decide⟩

theorem witness_EachStepAppendsOneTraceEntry :
    ∃ t, step (indirectAt2 5) = .next t ∧ (indirectAt2 5).halted = false := ⟨_, rfl, rfl⟩

theorem witness_HostStepAnswers :
    State.reset.assembled = false ∧ (blockAt 0 0).assembled = true ∧ (blockAt 0 0).halted = false ∧
    ({ blockAt 0 0 with halted := true } : State).halted = true ∧
    (∃ t, cycleStep (blockAt 0 0) = .next t) ∧ ∃ f, cycleStep (indirectAt2 0x1123) = .fault f :=
  ⟨rfl, rfl, rfl, rfl, ⟨_, rfl⟩, _, rfl⟩

theorem witness_NotAssembledOnlyByControlOperations :
    State.reset.assembled = false ∧ (blockAt 0 0).assembled = true := by decide

theorem witness_OnlyIndirectOperandRaises :
    (indirectAt2 0x1123).assembled = true ∧ step (indirectAt2 0x1123) = .fault (.outOfRange 0x1123) := ⟨rfl, rfl⟩

theorem witness_OutOfRangeIsResumable :
    (indirectAt2 0x1000).assembled = true ∧ (hostStep (indirectAt2 0x1000)).answer = .err (.outOfRange 0x1000) ∧
    (indirectAt2 0x1000).mem.wf = true ∧ (4095 : Nat) ≤ 4095 ∧ (4095 : Nat) < 4096 := by decide

/-- T2 at both sides of the address range, the error, an execute state, and a fetch of each form. -/
theorem witness_MemoryReferenceOperandForms :
    (indirectAt2 5).T = 2 ∧ ((indirectAt2 0x0FFF).mem.read 0x040).toNat ≤ 4095 ∧
    4095 < ((indirectAt2 0x1000).mem.read 0x040).toNat ∧
    error (exec (.isz true 0x040) (indirectAt2 0x1000)) = some (.outOfRange 0x1000) ∧ (blockAt 5 0x6030).T ≠ 2 ∧
    ({ blockAt 0 0 with mem := [(0x011, 0x6030)] } : State).mem.read 0x011 = encode (.isz false 0x030) ∧
    ({ blockAt 0 0 with mem := [(0x011, 0xE030)] } : State).mem.read 0x011 = encode (.isz true 0x030) ∧
    addressAfterT2 (.isz false 0x030) [(0x011, 0x6030)] = some 0x030 ∧
    addressAfterT2 (.isz true 0x030) [(0x011, 0xE030)] = some 0x000 := by decide

theorem witness_AtFetch_of_MemoryReferenceOperandForms : ({ blockAt 0 0 with mem := [(0x011, 0xE030)] } : State).AtFetch :=
  ⟨⟨rfl, rfl, rfl⟩, by decide⟩

theorem witness_OtherInstructionsLoadFieldAtT2 :
    opField (encode .cla) = 7 ∧ opField (encode (.io 0xFFF)) = 7 ∧ opField (encode (.nop 0x801)) = 7 ∧
    (blockAt 2 0x7800).T = 2 := by decide

/-- The hypotheses of the part common to R76 to R82: the mnemonics in a letter case, an operand token, and a fetch
of the direct and of the indirect word. -/
theorem witness_MemoryReferenceShape :
    ['l', 'D', 'a'].map foldCase = "LDA".toList ∧ ['s', 't', 'o', 'r', 'e'].map foldCase = "STORE".toList ∧
    operandValue "0xfFf".toList = some 0xFFF ∧ operandValue "007".toList = some 7 ∧
    error (exec (.bsa true 0x040) (indirectAt2 0x1000)) = some (.outOfRange 0x1000) ∧
    ({ blockAt 0 0 with mem := [(0x011, 0x5FFF)] } : State).mem.read (blockAt 0 0).PC = encode (.bsa false 0xFFF) ∧
    ({ blockAt 0 0 with mem := [(0x011, 0xD000)] } : State).mem.read (blockAt 0 0).PC = encode (.bsa true 0x000) ∧
    (({ blockAt 0 0 with mem := [(0x011, 0xD000)] } : State).mem.read 0x000).toNat ≤ 4095 := by decide

theorem witness_AtFetch_of_MemoryReferenceShape : ({ blockAt 0 0 with mem := [(0x011, 0xD000)] } : State).AtFetch :=
  ⟨⟨rfl, rfl, rfl⟩, by decide⟩

theorem witness_AndRule : (blockAt 3 0x0010).T = 3 ∧ (blockAt 4 0x0010).T = 4 := by decide
theorem witness_AddRule : (blockAt 3 0x1234).T = 3 ∧ (blockAt 4 0x1234).T = 4 := by decide
theorem witness_LoadRule : (blockAt 3 0x2005).T = 3 ∧ (blockAt 4 0x2005).T = 4 := by decide
theorem witness_StoreRule : (blockAt 3 0x3007).mem.wf = true ∧ (blockAt 3 0x3007).T = 3 := by decide
theorem witness_BunRule : (blockAt 3 0x400A).T = 3 := by decide
theorem witness_BsaRule :
    (blockAt 3 0x5020).mem.wf = true ∧ (blockAt 3 0x5020).T = 3 ∧ (blockAt 4 0x5020).T = 4 := by decide
theorem witness_IszRule :
    (blockAt 3 0x6030).T = 3 ∧ (blockAt 4 0x6030).T = 4 ∧ (blockAt 5 0x6030).T = 5 ∧
    (blockAt 5 0x6030).mem.wf = true := by decide

/-- The hypotheses of the part common to R85 to R96. -/
theorem witness_RegisterReferenceShape :
    ['c', 'L', 'a'].map foldCase = "CLA".toList ∧ ['h', 'l', 't'].map foldCase = "HLT".toList ∧
    ({ blockAt 0 0 with mem := [(0x011, 0x7800)] } : State).mem.read (blockAt 0 0).PC = 0x7800 := by decide

theorem witness_ClearComplementIncrementRules : (blockAt 3 0x7800).T = 3 ∧ (blockAt 3 0x7020).T = 3 := by decide
theorem witness_CirculateRules : (blockAt 3 0x7080).T = 3 ∧ (blockAt 3 0x7040).T = 3 := by decide
/-- Both outcomes of each skip at the boundary values of its condition. -/
theorem witness_SkipRules :
    (blockAt 3 0x7010).T = 3 ∧ (0x7FFF : Word).toNat < 0x8000 ∧ 0x8000 ≤ (0x8000 : Word).toNat ∧
    (0x0000 : Word) = 0 ∧ ¬ (0x0001 : Word) = 0 ∧ (0 : Flag) = 0 ∧ ¬ (1 : Flag) = 0 := by decide
theorem witness_HaltRule :
    (blockAt 3 0x7001).T = 3 ∧ (blockAt 3 0x7001).Running 3 ∧ (blockAt 3 0x7001).IR = 0x7001 ∧
    ({ blockAt 0 0 with mem := [(0x011, 0x7001)] } : State).AtFetch ∧
    ({ blockAt 0 0 with mem := [(0x011, 0x7001)] } : State).mem.read (blockAt 0 0).PC = 0x7001 :=
  ⟨rfl, ⟨rfl, rfl, rfl⟩, rfl, ⟨⟨rfl, rfl, rfl⟩, by decide⟩, rfl⟩
theorem witness_IoRule :
    (blockAt 3 0xFFFF).T = 3 ∧ ({ blockAt 0 0 with mem := [(0x011, 0xFFFF)] } : State).AtFetch ∧
    ({ blockAt 0 0 with mem := [(0x011, 0xFFFF)] } : State).mem.read (blockAt 0 0).PC =
      0xF000 ||| (0xFFF : Address).setWidth 16 :=
  ⟨rfl, ⟨⟨rfl, rfl, rfl⟩, by decide⟩, by decide⟩
theorem witness_NopRule :
    bitsSet 0x801 ≠ 1 ∧ (blockAt 3 0x7801).T = 3 ∧ ({ blockAt 0 0 with mem := [(0x011, 0x7801)] } : State).AtFetch ∧
    ({ blockAt 0 0 with mem := [(0x011, 0x7801)] } : State).mem.read (blockAt 0 0).PC =
      0x7000 ||| (0x801 : Address).setWidth 16 :=
  ⟨by decide, rfl, ⟨⟨rfl, rfl, rfl⟩, by decide⟩, by decide⟩

theorem witness_InstructionCycleRefinesWholeInstruction :
    ({ blockAt 0 0 with mem := [(0x011, 0x6030)] } : State).AtFetch ∧
    addressAfterT2 (decode 0x6030) [(0x011, 0x6030)] = some 0x030 ∧
    addressAfterT2 (decode 0xE030) [(0x011, 0xE030), (0x030, 0x0FFF)] = some 0xFFF ∧
    addressAfterT2 (decode 0xFFFF) [(0x011, 0xFFFF), (0xFFF, 0xFFFF)] = some 0xFFF :=
  ⟨⟨⟨rfl, rfl, rfl⟩, by decide⟩, by decide, by decide, by decide⟩

theorem witness_MicroStepCountsAreFixed :
    ({ blockAt 0 0 with mem := [(0x011, 0x6030)] } : State).AtFetch ∧
    addressAfterT2 (decode 0x6030) [(0x011, 0x6030)] ≠ none ∧
    ({ blockAt 0 0 with PLEN := 0x011 } : State).Running 0 ∧ (0x011 : ProgramLength).toNat ≤ (blockAt 0 0).PC.toNat ∧
    ({ blockAt 0 0 with mem := [(0x011, 0xA040), (0x040, 0x1000)] } : State).AtFetch ∧
    addressAfterT2 (decode 0xA040) [(0x011, 0xA040), (0x040, 0x1000)] = none :=
  ⟨⟨⟨rfl, rfl, rfl⟩, by decide⟩, by decide, ⟨rfl, rfl, rfl⟩, by decide, ⟨⟨rfl, rfl, rfl⟩, by decide⟩, by decide⟩

theorem witness_NonStoringInstructionsFrame :
    (∃ t, exec (.add true 0x040) (indirectAt2 5) = .next t) ∧
    ∀ ind a, Instr.add true 0x040 ≠ .store ind a ∧ Instr.add true 0x040 ≠ .bsa ind a ∧
      Instr.add true 0x040 ≠ .isz ind a := ⟨⟨_, rfl⟩, by simp⟩

theorem witness_StoringInstructionsFrame :
    (∃ t, exec (.store false 7) (blockAt 3 0x3007) = .next t) ∧ (∃ t, exec (.bsa false 7) (blockAt 4 0x5007) = .next t) ∧
    (∃ t, exec (.isz false 7) (blockAt 5 0x6007) = .next t) ∧
    ∃ ind a, Instr.isz false 7 = .store ind a ∨ Instr.isz false 7 = .bsa ind a ∨ Instr.isz false 7 = .isz ind a :=
  ⟨⟨_, rfl⟩, ⟨_, rfl⟩, ⟨_, rfl⟩, false, 7, .inr (.inr rfl)⟩

theorem witness_AccumulatorReadersAndWriters :
    (∃ s t : State, step s = .next t ∧ t.AC ≠ s.AC ∧ s.T = 3 ∧ decode s.IR = .cla) ∧
    (∃ s t : State, step s = .next t ∧ t.AC ≠ s.AC ∧ s.T = 4 ∧ decode s.IR = .load false 5) ∧
    readsAC .cla = false ∧ readsAC (.load true 0) = false :=
  ⟨⟨{ blockAt 3 0x7800 with AC := 1 }, _, rfl, by decide, rfl, by decide⟩,
   ⟨{ blockAt 4 0x2005 with DR := 1 }, _, rfl, by decide, rfl, by decide⟩, rfl, rfl⟩

theorem witness_FlagReadersAndWriters :
    (∃ s t : State, step s = .next t ∧ t.E ≠ s.E ∧ s.T = 4 ∧ decode s.IR = .add false 0x234) ∧
    (∃ s t : State, step s = .next t ∧ t.E ≠ s.E ∧ s.T = 3 ∧ decode s.IR = .cme) ∧
    readsE (.add false 0) = false ∧ readsE .inc = false :=
  ⟨⟨{ blockAt 4 0x1234 with AC := 0xFFFF, DR := 1 }, _, rfl, by decide, rfl, by decide⟩,
   ⟨blockAt 3 0x7100, _, rfl, by decide, rfl, by decide⟩, rfl, rfl⟩

/-- A step in each clause: the fetch, and one for each way that PC is written, ISZ's at PC's wrap. -/
theorem witness_FetchRegisterWriters :
    (∃ s t : State, step s = .next t ∧ s.halted = false ∧ s.T = 1 ∧ t.IR ≠ s.IR ∧ t.PC ≠ s.PC) ∧
    (∃ s t : State, step s = .next t ∧ s.halted = false ∧ 2 ≤ s.T.toNat ∧ t.PC ≠ s.PC ∧ decode s.IR = .bun false 0x00A) ∧
    (∃ s t : State, step s = .next t ∧ s.halted = false ∧ t.PC ≠ s.PC ∧ decode s.IR = .bsa false 0x020) ∧
    (∃ s t : State, step s = .next t ∧ s.halted = false ∧ t.PC ≠ s.PC ∧ t.PC = 0 ∧ decode s.IR = .isz false 0x030) ∧
    (∃ s t : State, step s = .next t ∧ s.halted = false ∧ t.PC ≠ s.PC ∧ decode s.IR = .sze) :=
  ⟨⟨{ blockAt 1 0 with mem := [(0, 1)] }, _, rfl, rfl, rfl, by decide, by decide⟩,
   ⟨blockAt 3 0x400A, _, rfl, rfl, by decide, by decide, by decide⟩,
   ⟨blockAt 4 0x5020, _, rfl, rfl, by decide, by decide⟩,
   ⟨{ blockAt 5 0x6030 with PC := 0xFFF }, _, rfl, rfl, by decide, by decide, by decide⟩,
   ⟨blockAt 3 0x7002, _, rfl, rfl, by decide, by decide⟩⟩

/-- A step in each clause of AR and of DR. -/
theorem witness_SequencerRegisterWriters :
    (∃ s t : State, step s = .next t ∧ s.halted = false ∧ t.AR ≠ s.AR ∧ s.T = 0) ∧
    (∃ s t : State, step s = .next t ∧ s.halted = false ∧ t.AR ≠ s.AR ∧ s.T = 2) ∧
    (∃ s t : State, step s = .next t ∧ s.halted = false ∧ t.AR ≠ s.AR ∧ s.T = 3 ∧ decode s.IR = .bsa false 0x020) ∧
    (∃ s t : State, step s = .next t ∧ s.halted = false ∧ t.DR ≠ s.DR ∧ s.T = 3 ∧ decode s.IR = .load false 0x000) ∧
    (∃ s t : State, step s = .next t ∧ s.halted = false ∧ t.DR ≠ s.DR ∧ s.T = 4 ∧ decode s.IR = .isz false 0x030) :=
  ⟨⟨blockAt 0 0, _, rfl, rfl, by decide, rfl⟩, ⟨blockAt 2 0x6030, _, rfl, rfl, by decide, rfl⟩,
   ⟨blockAt 3 0x5020, _, rfl, rfl, by decide, rfl, by decide⟩,
   ⟨{ blockAt 3 0x2000 with mem := [(0, 1)] }, _, rfl, rfl, by decide, rfl, by decide⟩,
   ⟨blockAt 4 0x6030, _, rfl, rfl, by decide, rfl, by decide⟩⟩

theorem witness_TimingStateAndHaltTransitions :
    (∃ s t : State, step s = .next t ∧ s.halted = false ∧ t.halted = true ∧ s.T = 0) ∧
    (∃ s t : State, step s = .next t ∧ s.halted = false ∧ t.halted = true ∧ s.T = 3) :=
  ⟨⟨{ blockAt 0 0 with PLEN := 0 }, _, rfl, rfl, rfl, rfl⟩, ⟨blockAt 3 0x7001, _, rfl, rfl, rfl, rfl⟩⟩

/-- STORE, BSA and ISZ at the cell 0, each in canonical memory. -/
theorem witness_StepWritesAtMostOneCell :
    (∃ s t : State, s.mem.wf = true ∧ step s = .next t ∧ t.mem.read 0 ≠ s.mem.read 0 ∧ decode s.IR = .store false 7) ∧
    (∃ s t : State, s.mem.wf = true ∧ step s = .next t ∧ t.mem.read 0 ≠ s.mem.read 0 ∧ decode s.IR = .bsa false 0x020) ∧
    (∃ s t : State, s.mem.wf = true ∧ step s = .next t ∧ t.mem.read 0 ≠ s.mem.read 0 ∧ decode s.IR = .isz false 0x030) :=
  ⟨⟨{ blockAt 3 0x3007 with AC := 1 }, _, rfl, rfl, by decide, by decide⟩,
   ⟨blockAt 3 0x5020, _, rfl, rfl, by decide, by decide⟩,
   ⟨{ blockAt 5 0x6030 with DR := 1 }, _, rfl, rfl, by decide, by decide⟩⟩

theorem witness_IndirectBranchReturnsFromCall :
    (blockAt 3 0x5020).mem.wf = true ∧ (blockAt 3 0x5020).T = 3 ∧
    ∃ t, exec (.bsa false 0x020) (blockAt 3 0x5020) = .next t ∧ ∃ u : State, u.mem = t.mem ∧ u.T = 2 :=
  ⟨rfl, rfl, _, rfl, { blockAt 2 0xC000 with mem := [(0x000, 0x0011)] }, rfl, rfl⟩

/-- A fetch from the stored cell after STORE's T3, BSA's T3 and ISZ's T5, each of one state `s`, and after a host
write to the last cell. -/
theorem witness_FetchSeesStoredWord :
    (∃ s t u : State, s.mem.wf = true ∧ u.Running 1 ∧ s.halted = false ∧ step s = .next t ∧
      (s.T = 3 ∧ (∃ ind a, decode s.IR = .store ind a) ∧ 0x7020 = s.AC) ∧ u.AR = s.AR ∧
      u.mem.read s.AR = t.mem.read s.AR) ∧
    (∃ s t u : State, s.mem.wf = true ∧ u.Running 1 ∧ s.halted = false ∧ step s = .next t ∧
      (s.T = 3 ∧ (∃ ind a, decode s.IR = .bsa ind a) ∧ 0x0011 = s.PC.setWidth 16) ∧ u.AR = s.AR ∧
      u.mem.read s.AR = t.mem.read s.AR) ∧
    (∃ s t u : State, s.mem.wf = true ∧ u.Running 1 ∧ s.halted = false ∧ step s = .next t ∧
      (s.T = 5 ∧ (∃ ind a, decode s.IR = .isz ind a) ∧ 0x7001 = s.DR) ∧ u.AR = s.AR ∧
      u.mem.read s.AR = t.mem.read s.AR) ∧
    (∃ s u : State, s.mem.wf = true ∧ u.Running 1 ∧ 4095 ≤ 4095 ∧ u.AR = BitVec.ofNat 12 4095 ∧
      u.mem.read u.AR = (writeMemory 4095 0x1FFFF s).state.mem.read u.AR) :=
  ⟨⟨{ blockAt 3 0x3007 with AC := 0x7020 }, _, { blockAt 1 0 with mem := [(0, 0x7020)] }, rfl, ⟨rfl, rfl, rfl⟩, rfl, rfl,
    ⟨rfl, ⟨false, 7, by decide⟩, rfl⟩, rfl, rfl⟩,
   ⟨blockAt 3 0x5007, _, { blockAt 1 0 with mem := [(0, 0x0011)] }, rfl, ⟨rfl, rfl, rfl⟩, rfl, rfl,
    ⟨rfl, ⟨false, 7, by decide⟩, rfl⟩, rfl, rfl⟩,
   ⟨{ blockAt 5 0x6007 with DR := 0x7001 }, _, { blockAt 1 0 with mem := [(0, 0x7001)] }, rfl, ⟨rfl, rfl, rfl⟩, rfl, rfl,
    ⟨rfl, ⟨false, 7, by decide⟩, rfl⟩, rfl, rfl⟩,
   ⟨blockAt 0 0, { blockAt 1 0 with AR := 0xFFF, mem := [(0xFFF, 0xFFFF)] }, rfl, ⟨rfl, rfl, rfl⟩, le_refl _, rfl, rfl⟩⟩

/-- A block in each timing state before which the host writes: T1 and T2 of an indirect word, T4 and T5 of ISZ. -/
theorem witness_HostWriteBetweenMicroSteps :
    (∃ s : State, s.mem.wf = true ∧ s.Running 1 ∧ opField (s.mem.read s.AR) ≠ 7 ∧ iBit (s.mem.read s.AR) = true ∧
      addrField (s.mem.read s.AR) ≠ s.AR) ∧
    (∃ s : State, s.mem.wf = true ∧ s.Running 2 ∧ opField s.IR ≠ 7 ∧ iBit s.IR = true) ∧
    (∃ s : State, s.mem.wf = true ∧ s.Running 4 ∧ ∃ ind a, decode s.IR = .isz ind a) ∧
    (∃ s : State, s.mem.wf = true ∧ s.Running 5 ∧ ∃ ind a, decode s.IR = .isz ind a) ∧ (4095 : Nat) ≤ 4095 :=
  ⟨⟨{ blockAt 1 0 with mem := [(0, 0xA040)] }, rfl, ⟨rfl, rfl, rfl⟩, by decide, by decide, by decide⟩,
   ⟨indirectAt2 5, rfl, ⟨rfl, rfl, rfl⟩, by decide, by decide⟩,
   ⟨blockAt 4 0x6030, rfl, ⟨rfl, rfl, rfl⟩, false, 0x030, by decide⟩,
   ⟨blockAt 5 0x6030, rfl, ⟨rfl, rfl, rfl⟩, false, 0x030, by decide⟩, le_refl _⟩

theorem witness_AssembleCommitsAllOrNothing :
    ["HALT", "AND 0"].map encodeLine = [0x7001, 0x0000].map some ∧ (([] : List String)).map encodeLine = [].map some ∧
    ["HALT", "AND 0"].length ≤ 4096 ∧ assembleLines ["CLA", "FOO"] = .error 2 :=
  ⟨rfl, rfl, by decide, rfl⟩

/-- W7. -/
theorem witness_SyntaxErrorOnlyByAssemble :
    (assemble ["LOAD 5", "ADD 6", "FOO"] State.reset).answer = .err (.syntaxError 3) := by decide

theorem witness_WriteMemoryTouchesOneCell :
    State.reset.mem.wf = true ∧ (4095 : Nat) < 4096 ∧ (4095 : Nat) ≤ 4095 ∧
    (0 : Address) ≠ BitVec.ofNat 12 4095 := by decide

theorem witness_QueriesReadTheState : 4095 < (memoryContents State.reset).length := by
  simp [memoryContents, Config.memWords]

/-- A run that halts at once (H11), one that raises (MR26), and a legal state. -/
theorem witness_RunToHaltIsBounded :
    State.reset.assembled = false ∧ (blockAt 0 0).assembled = true ∧
    (runToHalt 0 { blockAt 0 0 with halted := true }).answer = .ok 0 ∧
    (runToHalt 1 (indirectAt2 0x1123)).answer = .err (.outOfRange 0x1123) ∧ (blockAt 0 0).Legal :=
  ⟨rfl, rfl, rfl, rfl, blockAt_0_legal⟩

/-- H10, and the bound reached after one micro-step. -/
theorem witness_StepLimitExceededAtTheBoundOnly :
    (runToHalt 0 (blockAt 0 0)).answer = .err .stepLimitExceeded ∧
    (runToHalt 1 (blockAt 0 0)).answer = .err .stepLimitExceeded ∧ (blockAt 0 0).Legal :=
  ⟨rfl, rfl, blockAt_0_legal⟩

theorem witness_RunInstructionAlwaysEnds :
    State.reset.assembled = false ∧ (blockAt 0 0).assembled = true ∧ (blockAt 0 0).halted = false ∧
    ({ blockAt 0 0 with halted := true } : State).halted = true ∧ (blockAt 0 0).Legal :=
  ⟨rfl, rfl, rfl, rfl, blockAt_0_legal⟩

theorem witness_StepKeepsLegalState : (blockAt 0 0).Legal ∧ ∃ t, step (blockAt 0 0) = .next t :=
  ⟨blockAt_0_legal, _, rfl⟩

theorem witness_HostOperationsKeepLegalState : (blockAt 0 0).Legal := blockAt_0_legal

theorem witness_Reachable : Reachable (HostOp.step.after ((HostOp.assemble ["CLA"]).after State.reset)) :=
  .op _ _ (.op _ _ .start)

/-- A reachable state for point 6 of R30: in T0, not halted, with the cycle of one CLA behind it. -/
theorem witness_ReachableStatesMeetInvariants :
    ∃ s : State, Reachable s ∧ s.T = 0 ∧ s.halted = false ∧ s.IR = 0x7800 ∧ s.trace.length = 4 :=
  ⟨HostOp.runInstruction.after ((HostOp.assemble ["CLA"]).after State.reset), .op _ _ (.op _ _ .start), rfl, rfl, rfl, rfl⟩

end Sys2Proof.Tests
end

section
/-! The writers of IR and PC (10_state.md R18, R20): which micro-operations change PC, which ROM rows hold them,
and so which steps do. -/

namespace Sys2Proof.Machine

/-! ### What one micro-operation and one ROM entry do to PC -/

/-- Adding one to an Address is adding one modulo 4096 (R10). -/
theorem address_add_one (pc : Address) : pc + 1 = BitVec.ofNat 12 ((pc.toNat + 1) % 4096) := by
  apply BitVec.eq_of_toNat_eq
  simp [BitVec.toNat_add]

/-- A skip that changes PC is taken, and adds one (R84). -/
theorem skipTarget_ne {c : Bool} {pc : Address} (h : skipTarget c pc ≠ pc) : c = true ∧ skipTarget c pc = pc + 1 := by
  cases c with
  | false => exact absurd rfl h
  | true => exact ⟨rfl, rfl⟩

/-- What a micro-operation writes to PC does not depend on the writes collected before it (R66, R70). -/
theorem MicroOp.apply_PC (op : MicroOp) (s acc : State) :
    (op.apply s acc).PC = acc.PC ∨ (op.apply s acc).PC = (op.apply s s).PC := by
  cases op with
  | pcAr | skipDrz | skipAcPos | skipAcNeg | skipAcZ | skipEZ => exact .inr rfl
  | _ => exact .inl rfl

/-- The skip micro-operations of the register-reference instructions (R72). -/
def registerSkips : List MicroOp := [.skipAcPos, .skipAcNeg, .skipAcZ, .skipEZ]

/-- The micro-operations that change PC: the branch, and the skips that are taken (R72). -/
theorem MicroOp.apply_PC_ne {op : MicroOp} {s : State} (h : (op.apply s s).PC ≠ s.PC) :
    op = .pcAr ∨ ((op.apply s s).PC = s.PC + 1 ∧ ((op = .skipDrz ∧ s.DR = 0) ∨ op ∈ registerSkips)) := by
  cases op with
  | pcAr => exact .inl rfl
  | skipDrz =>
    obtain ⟨hz, hpc⟩ := skipTarget_ne h
    exact .inr ⟨hpc, .inl ⟨rfl, by simpa [isZeroWord] using hz⟩⟩
  | skipAcPos | skipAcNeg | skipAcZ | skipEZ =>
    exact .inr ⟨(skipTarget_ne h).2, .inr (by simp [registerSkips])⟩
  | _ => exact absurd rfl h

/-- The PC after the micro-operations of one state is the old one, or what one of them writes. -/
theorem applyOps_PC (ops : List MicroOp) (s : State) :
    (applyOps ops s).PC = s.PC ∨ ∃ op ∈ ops, (applyOps ops s).PC = (op.apply s s).PC := by
  have key : ∀ acc : State, (ops.foldl (fun acc op => op.apply s acc) acc).PC = acc.PC ∨
      ∃ op ∈ ops, (ops.foldl (fun acc op => op.apply s acc) acc).PC = (op.apply s s).PC := by
    induction ops with
    | nil => exact fun _ => .inl rfl
    | cons op ops ih =>
      intro acc
      rcases ih (op.apply s acc) with h | ⟨o, ho, h⟩
      · rcases op.apply_PC s acc with h' | h'
        · exact .inl (h.trans h')
        · exact .inr ⟨op, List.mem_cons_self, h.trans h'⟩
      · exact .inr ⟨o, List.mem_cons_of_mem _ ho, h⟩
  exact key s

theorem executeEntry_PC (e : RomEntry) (s : State) : (executeEntry e s).PC = (applyOps e.ops s).PC := by
  unfold executeEntry
  split <;> rfl

/-- A ROM entry that changes PC holds a micro-operation that writes the new value. -/
theorem executeEntry_PC_ne {e : RomEntry} {s : State} (h : (executeEntry e s).PC ≠ s.PC) :
    ∃ op ∈ e.ops, (op.apply s s).PC ≠ s.PC ∧ (executeEntry e s).PC = (op.apply s s).PC := by
  rcases applyOps_PC e.ops s with hk | ⟨op, ho, hw⟩
  · exact absurd ((executeEntry_PC e s).trans hk) h
  · have hw := (executeEntry_PC e s).trans hw
    exact ⟨op, ho, hw ▸ h, hw⟩

/-! ### The ROM rows that hold the micro-operations that write PC (R71) -/

/-- Only the rows of BUN and BSA branch. -/
theorem pcAr_mem_romRows (i : Instr) :
    ∀ e ∈ romRows i, MicroOp.pcAr ∈ e.ops → (∃ ind a, i = .bun ind a) ∨ ∃ ind a, i = .bsa ind a := by
  cases i with
  | bun ind a => exact fun _ _ _ => .inl ⟨ind, a, rfl⟩
  | bsa ind a => exact fun _ _ _ => .inr ⟨ind, a, rfl⟩
  | _ => simp [romRows]

/-- Only the rows of ISZ skip on DR. -/
theorem skipDrz_mem_romRows (i : Instr) :
    ∀ e ∈ romRows i, MicroOp.skipDrz ∈ e.ops → ∃ ind a, i = .isz ind a := by
  cases i with
  | isz ind a => exact fun _ _ _ => ⟨ind, a, rfl⟩
  | _ => simp [romRows]

/-- Only the rows of SPA, SNA, SZA and SZE skip on AC or E. -/
theorem registerSkip_mem_romRows (i : Instr) {op : MicroOp} (hop : op ∈ registerSkips) :
    ∀ e ∈ romRows i, op ∈ e.ops → i = .spa ∨ i = .sna ∨ i = .sza ∨ i = .sze := by
  cases i with
  | spa | sna | sza | sze => simp
  | _ =>
    simp only [registerSkips, List.mem_cons, List.not_mem_nil, or_false] at hop
    rcases hop with rfl | rfl | rfl | rfl <;> simp [romRows]

/-- The branch stands in T3 of BUN and in T4 of BSA. -/
theorem romEntry_pcAr {i : Instr} {n : Nat} {e : RomEntry} (h : romEntry (romRows i) n = some e)
    (ho : MicroOp.pcAr ∈ e.ops) : (n = 3 ∧ ∃ ind a, i = .bun ind a) ∨ (n = 4 ∧ ∃ ind a, i = .bsa ind a) := by
  obtain ⟨h3, hl, hm⟩ := romEntry_some h
  rcases pcAr_mem_romRows i e hm ho with ⟨ind, a, rfl⟩ | ⟨ind, a, rfl⟩
  · exact .inl ⟨Nat.le_antisymm hl h3, ind, a, rfl⟩
  · have hn : n ≠ 3 := by
      rintro rfl
      cases h
      simp at ho
    have hl : n ≤ 4 := hl
    exact .inr ⟨by omega, ind, a, rfl⟩

/-- The skip on DR stands in T5 of ISZ. -/
theorem romEntry_skipDrz {i : Instr} {n : Nat} {e : RomEntry} (h : romEntry (romRows i) n = some e)
    (ho : MicroOp.skipDrz ∈ e.ops) : n = 5 ∧ ∃ ind a, i = .isz ind a := by
  obtain ⟨h3, hl, hm⟩ := romEntry_some h
  obtain ⟨ind, a, rfl⟩ := skipDrz_mem_romRows i e hm ho
  have hn : n ≠ 3 ∧ n ≠ 4 := by
    constructor <;> rintro rfl <;> cases h <;> simp at ho
  have hl : n ≤ 5 := hl
  exact ⟨by omega, ind, a, rfl⟩

/-- The skips on AC and E stand in T3 of SPA, SNA, SZA and SZE. -/
theorem romEntry_registerSkip {i : Instr} {n : Nat} {e : RomEntry} {op : MicroOp}
    (h : romEntry (romRows i) n = some e) (hop : op ∈ registerSkips) (ho : op ∈ e.ops) :
    n = 3 ∧ (i = .spa ∨ i = .sna ∨ i = .sza ∨ i = .sze) := by
  obtain ⟨h3, hl, hm⟩ := romEntry_some h
  have hi := registerSkip_mem_romRows i hop e hm ho
  have hone : (romRows i).length = 1 := by rcases hi with rfl | rfl | rfl | rfl <;> rfl
  exact ⟨by omega, hi⟩

/-! ### Which steps write PC -/

/-- The steps from T2 on that change PC (R18): BUN's T3, BSA's T4, ISZ's T5 and T3 of the four skips. -/
theorem exec_PC_ne {i : Instr} {s t : State} (h : exec i s = .next t) (hne : t.PC ≠ s.PC) :
    (s.T = 3 ∧ ∃ ind a, i = .bun ind a) ∨ (s.T = 4 ∧ ∃ ind a, i = .bsa ind a) ∨
      (t.PC = s.PC + 1 ∧
        ((s.T = 5 ∧ s.DR = 0 ∧ ∃ ind a, i = .isz ind a) ∨
          (s.T = 3 ∧ (i = .spa ∨ i = .sna ∨ i = .sza ∨ i = .sze)))) := by
  rcases exec_next h with ⟨-, ht⟩ | ⟨e, he, rfl⟩
  · rw [ht] at hne
    exact absurd rfl hne
  · obtain ⟨op, ho, hop, hpc⟩ := executeEntry_PC_ne hne
    rw [hpc]
    rcases MicroOp.apply_PC_ne hop with rfl | ⟨hadd, ⟨rfl, hz⟩ | hskip⟩
    · rcases romEntry_pcAr he ho with ⟨hT, hi⟩ | ⟨hT, hi⟩
      · exact .inl ⟨timingState_eq_of_toNat hT, hi⟩
      · exact .inr (.inl ⟨timingState_eq_of_toNat hT, hi⟩)
    · obtain ⟨hT, hi⟩ := romEntry_skipDrz he ho
      exact .inr (.inr ⟨hadd, .inl ⟨timingState_eq_of_toNat hT, hz, hi⟩⟩)
    · obtain ⟨hT, hi⟩ := romEntry_registerSkip he hskip ho
      exact .inr (.inr ⟨hadd, .inr ⟨timingState_eq_of_toNat hT, hi⟩⟩)

/-- The T0 micro-step keeps IR, PC and the trace. -/
theorem addressState_keeps (s : State) :
    (addressState s).IR = s.IR ∧ (addressState s).PC = s.PC ∧ (addressState s).trace = s.trace := by
  rw [addressState_eq]
  split <;> exact ⟨rfl, rfl, rfl⟩

/-- The state part of a micro-step leaves the trace to `cycleStep` (R65). -/
theorem timingState_trace {s t : State} (h : timingState s = .next t) : t.trace = s.trace := by
  rcases timingState_next h with ⟨-, rfl⟩ | ⟨-, rfl⟩ | ⟨-, -, hx⟩
  · exact (addressState_keeps s).2.2
  · rfl
  · exact (exec_keeps hx).2.2.2

end Sys2Proof.Machine

namespace Sys2Proof.Claims

open Sys2Proof.Machine

/-- Recording `s1` appends the rules' own trace entry when `s1` still has the trace of `s` (R27, R28). -/
theorem record_eq_recorded {s s1 : State} (ref : Option Address) (h : s1.trace = s.trace) :
    s1.record s.T ref = recorded s s1 ref := by
  unfold recorded
  rw [← h]
  rfl

/-- A step of a block that is not halted is T0, T1, or a micro-step of the instruction in IR, recorded (R65). -/
theorem step_running_next {s t : State} (h : step s = .next t) (hh : s.halted = false) :
    ∃ u, t = recorded s u (memoryReference s) ∧
      ((s.T = 0 ∧ u = addressState s) ∨ (s.T = 1 ∧ u = fetchState s) ∨
        (s.T ≠ 0 ∧ s.T ≠ 1 ∧ exec (decode s.IR) s = .next u)) := by
  obtain ⟨-, ⟨hhalt, -⟩ | ⟨-, u, hu, rfl⟩⟩ := step_next h
  · rw [hh] at hhalt
    cases hhalt
  · exact ⟨u, record_eq_recorded _ (timingState_trace hu), timingState_next hu⟩

/-- Settles O39, by the three kinds of micro-step: T0 keeps both registers, T1 is the fetch, and an execute state
keeps IR and changes PC as `exec_PC_ne` says. -/
theorem fetchRegisterWriters : Obligations.FetchRegisterWriters := by
  refine ⟨fun s t h hh => ?_, rfl, rfl, fun s => ⟨rfl, rfl⟩⟩
  obtain ⟨u, rfl, ⟨hT, rfl⟩ | ⟨hT, rfl⟩ | ⟨h0, h1, hx⟩⟩ := step_running_next h hh
  · obtain ⟨hir, hpc, -⟩ := addressState_keeps s
    exact ⟨by simp [hT], fun hne => absurd hir hne, by simp [hT], fun hne => absurd hpc hne⟩
  · exact ⟨fun _ => ⟨rfl, address_add_one s.PC⟩, fun _ => hT, by simp [hT], fun _ => .inl hT⟩
  · refine ⟨fun hT => absurd hT h1, fun hne => absurd (exec_keeps hx).1 hne, fun _ => ⟨u, hx, rfl⟩, fun hne => ?_⟩
    have hpc := exec_PC_ne hx hne
    rw [address_add_one] at hpc
    exact .inr hpc

end Sys2Proof.Claims
end

section
/-! The forward rules of the cycle (40_instruction_cycle.md R65, R68): the next state of a running block's step, from
the outcome of its timing state, and the fetch state T1 as an instance. -/

namespace Sys2Proof.Machine

/-- In T1 the timing state is the fetch, of every word (R68). -/
theorem timingState_of_T_eq_one {s : State} (hT : s.T = 1) : timingState s = .next (fetchState s) := by
  simp [timingState, hT]

/-- The fetch reads the cell at AR (R73). -/
theorem memoryReference_of_T_eq_one {s : State} (hT : s.T = 1) : memoryReference s = some s.AR := by
  simp [memoryReference, hT]

end Sys2Proof.Machine

namespace Sys2Proof.Claims

open Sys2Proof.Machine

/-- A running block steps to the outcome of its timing state, with the trace entry of the step (R65). -/
theorem step_eq_recorded {s u : State} {n : TimingState} (hr : s.Running n) (hu : timingState s = .next u) :
    step s = .next (recorded s u (memoryReference s)) := by
  obtain ⟨ha, hh, -⟩ := hr
  rw [step_running ha hh, cycleStep, hu, ← record_eq_recorded _ (timingState_trace hu)]

/-- Settles O9: the step is the fetch state, recorded with AR, and the Address PC + 1 is PC plus one modulo 4096. -/
theorem fetchStateLoadsIrAndAdvancesPc : Obligations.FetchStateLoadsIrAndAdvancesPc := by
  intro s hr
  have ⟨_, _, hT⟩ := hr
  rw [step_eq_recorded hr (timingState_of_T_eq_one hT), memoryReference_of_T_eq_one hT, fetchState_eq,
    address_add_one]

end Sys2Proof.Claims
end

section
/-! The terminal step of an instruction (40_instruction_cycle.md R71, R74): which ROM entry is the last, and how many
micro-steps the loop of `runInstruction` still counts from an execute state on. -/

namespace Sys2Proof.Machine

/-- The last row of an instruction, and no other, is marked terminal (R71). -/
theorem romRows_map_last (i : Instr) :
    (romRows i).map RomEntry.last =
      (List.range (romRows i).length).map fun k => decide (k + 1 = (romRows i).length) := by
  cases i <;> rfl

/-- The entry of a timing state is marked terminal exactly in the instruction's terminal state (R71). -/
theorem romEntry_last {i : Instr} {n : Nat} {e : RomEntry} (h : romEntry (romRows i) n = some e) :
    e.last = decide (n = terminalState i) := by
  obtain ⟨h3, hl, -⟩ := romEntry_some h
  rw [romEntry, if_neg (by omega)] at h
  have hmark := congrArg (fun marks => marks[n - 3]?) (romRows_map_last i)
  simp only [List.getElem?_map, h, List.getElem?_range (show n - 3 < (romRows i).length by omega), Option.map_some,
    Option.some.injEq] at hmark
  rw [hmark, terminalState]
  exact decide_eq_decide.mpr (by omega)

/-- Only a terminal entry halts the block (R71, R96). -/
theorem hlt_mem_romRows (i : Instr) : ∀ e ∈ romRows i, MicroOp.hlt ∈ e.ops → e.last = true := by
  cases i <;> simp [romRows]

/-- Every other micro-operation keeps the halt flag (R72). -/
theorem MicroOp.apply_halted {op : MicroOp} (h : op ≠ .hlt) (s acc : State) :
    (op.apply s acc).halted = acc.halted := by
  cases op with
  | hlt => exact absurd rfl h
  | _ => rfl

/-- A ROM entry without HLT keeps the halt flag. -/
theorem executeEntry_halted {e : RomEntry} (h : MicroOp.hlt ∉ e.ops) (s : State) :
    (executeEntry e s).halted = s.halted := by
  have hops : (applyOps e.ops s).halted = s.halted :=
    List.foldlRecOn e.ops (motive := fun acc : State => acc.halted = s.halted) _ rfl fun acc hacc op hop =>
      (op.apply_halted (fun hh => h (hh ▸ hop)) s acc).trans hacc
  unfold executeEntry
  split <;> exact hops

/-- From T3 on, the timing state is the instruction's ROM entry (R70). -/
theorem timingState_of_romEntry {s : State} {e : RomEntry}
    (he : romEntry (romRows (decode s.IR)) s.T.toNat = some e) : timingState s = .next (executeEntry e s) := by
  obtain ⟨h3, -, -⟩ := romEntry_some he
  have hne : ∀ t : TimingState, t.toNat < 3 → s.T ≠ t := fun t ht hT => by
    rw [hT] at h3
    omega
  rw [timingState, if_neg (hne 0 (by decide)), if_neg (hne 1 (by decide)), exec_eq, instructionStep,
    if_neg (hne 2 (by decide)), he]

/-- Below T7 the next timing state is numbered one higher. -/
theorem timingState_add_one_toNat {t : TimingState} (h : t.toNat < 7) : (t + 1).toNat = t.toNat + 1 := by
  rw [BitVec.toNat_add]
  exact Nat.mod_eq_of_lt (Nat.succ_lt_succ h)

end Sys2Proof.Machine

namespace Sys2Proof.Claims

open Sys2Proof.Machine

/-- The step of the terminal state ends at the instruction boundary (R70). -/
theorem step_terminal {s : State} (hr : s.Running s.T) (hT : s.T.toNat = terminalState (decode s.IR)) :
    ∃ t, step s = .next t ∧ t.T = 0 := by
  have h3 : 3 ≤ s.T.toNat := by
    have := romRows_length_pos (decode s.IR)
    unfold terminalState at hT
    omega
  obtain ⟨e, he⟩ := romEntry_defined h3 hT.le
  have hlast : e.last = true := by simp [romEntry_last he, hT]
  refine ⟨_, step_eq_recorded hr (timingState_of_romEntry he), ?_⟩
  exact (executeEntry_T e s).trans (if_pos hlast)

/-- An execute state before the terminal one leads to the next timing state of the same instruction (R22, R70). -/
theorem step_before_terminal {s : State} (hr : s.Running s.T) (h3 : 3 ≤ s.T.toNat)
    (hT : s.T.toNat < terminalState (decode s.IR)) :
    ∃ t, step s = .next t ∧ t.IR = s.IR ∧ t.Running t.T ∧ t.T.toNat = s.T.toNat + 1 := by
  obtain ⟨hasm, hrun, -⟩ := hr
  obtain ⟨e, he⟩ := romEntry_defined h3 hT.le
  have hlast : e.last = false := by simp [romEntry_last he, hT.ne]
  have hhlt : MicroOp.hlt ∉ e.ops := fun hop => by
    simp [hlt_mem_romRows _ e (romEntry_some he).2.2 hop] at hlast
  have hnat : (s.T + 1).toNat = s.T.toNat + 1 := timingState_add_one_toNat <| by
    have := romRows_length_le (decode s.IR)
    unfold terminalState at hT
    omega
  obtain ⟨hIR, hkeep, -⟩ := executeEntry_keeps e s
  have hnext : (executeEntry e s).T = s.T + 1 := by simp [executeEntry_T, hlast]
  exact ⟨_, step_eq_recorded ⟨hasm, hrun, rfl⟩ (timingState_of_romEntry he), hIR,
    ⟨hkeep.trans hasm, (executeEntry_halted hhlt s).trans hrun, rfl⟩, (congrArg BitVec.toNat hnext).trans hnat⟩

/-- From an execute state with `m` more to the terminal one, the loop of `runInstruction` counts `m + 1` micro-steps,
whatever the operands (R74, R105). -/
theorem runInstructionFrom_execute {fuel m : Nat} (k : Nat) {s : State} (hr : s.Running s.T) (h3 : 3 ≤ s.T.toNat)
    (hm : s.T.toNat + m = terminalState (decode s.IR)) (hfuel : m < fuel) :
    (runInstructionFrom fuel k s).answer = .ok (k + (m + 1)) := by
  induction m generalizing fuel k s with
  | zero =>
    obtain ⟨fuel, rfl⟩ := Nat.exists_eq_succ_of_ne_zero hfuel.ne'
    obtain ⟨t, ht, hT⟩ := step_terminal hr hm
    rw [runInstructionFrom_next ht, if_pos (.inr hT)]
  | succ m ih =>
    obtain ⟨fuel, rfl⟩ := Nat.exists_eq_succ_of_ne_zero (Nat.ne_zero_of_lt hfuel)
    obtain ⟨t, ht, hIR, hrt, hT⟩ := step_before_terminal hr h3 (by omega)
    have hgoes : ¬ (t.halted ∨ t.T = 0) := by
      rintro (hh | h0)
      · simp [hrt.2.1] at hh
      · simp [h0] at hT
    rw [runInstructionFrom_next ht, if_neg hgoes,
      ih (k + 1) hrt (by omega) (by rw [hIR]; omega) (Nat.lt_of_succ_lt_succ hfuel)]
    congr 1
    omega

end Sys2Proof.Claims
end

section
/-! From a fetch to T3 (40_instruction_cycle.md R67 to R69, 41_memory_reference.md R75): T2 of an instruction whose
effective address exists, and the three common micro-steps together. -/

namespace Sys2Proof.Machine

/-- T0 of a block that is about to fetch loads AR (R67). -/
theorem timingState_of_atFetch {s : State} (h : s.AtFetch) : timingState s = .next { s with AR := s.PC, T := 1 } := by
  obtain ⟨⟨-, -, hT⟩, hpc⟩ := h
  rw [timingState, if_pos hT, addressState_eq, if_neg (Nat.not_le.mpr hpc)]

/-- In T2 the timing state is the operand form of the instruction in IR (R69). -/
theorem timingState_of_T_eq_two {s : State} (hT : s.T = 2) : timingState s = operandOf (decode s.IR) s := by
  rw [timingState, if_neg (by simp [hT]), if_neg (by simp [hT]), exec_eq, instructionStep_at_T2 hT]

end Sys2Proof.Machine

namespace Sys2Proof.Claims

open Sys2Proof.Machine

/-- The effective address of a memory operand: the field, or the word there where it is an Address (R75). -/
def effectiveAddress (ind : Bool) (a : Address) (m : Memory) : Option Address :=
  if ind then (if (m.read a).toNat ≤ 4095 then some ((m.read a).setWidth 12) else none) else some a

/-- Where the effective address exists, the operand form loads it into AR (R75). -/
theorem memoryOperand_of_effectiveAddress {ind : Bool} {a ea : Address} {s : State}
    (h : effectiveAddress ind a s.mem = some ea) :
    memoryOperand ind a s = .next { s with AR := ea, T := s.T + 1 } := by
  cases ind with
  | false =>
    cases h
    exact fieldOperand_eq a s
  | true =>
    by_cases hr : (s.mem.read a).toNat ≤ 4095
    · rw [effectiveAddress, if_pos rfl, if_pos hr] at h
      cases h
      rw [memoryOperand, if_pos rfl, indirectOperand_ok hr, BitVec.ofNat_toNat]
    · simp [effectiveAddress, hr] at h

/-- T2 loads AR with `addressAfterT2`, where that exists (R69, R75). -/
theorem operandOf_of_addressAfterT2 {i : Instr} {ea : Address} {s : State} (h : addressAfterT2 i s.mem = some ea) :
    operandOf i s = .next { s with AR := ea, T := s.T + 1 } := by
  cases i with
  | and ind a | add ind a | load ind a | store ind a | bun ind a | bsa ind a | isz ind a =>
    exact memoryOperand_of_effectiveAddress h
  | _ =>
    have hfield := Option.some.inj h
    rw [(Laws.EncodedFields.of_pack _).2.2] at hfield
    exact hfield ▸ fieldOperand_eq _ s

/-- The three micro-steps from a fetch to T3, of an instruction whose effective address exists (R67, R68, R69). -/
theorem steps_to_T3 {s : State} {ea : Address} (hf : s.AtFetch)
    (hea : addressAfterT2 (decode (s.mem.read s.PC)) s.mem = some ea) :
    ∃ u v t, step s = .next u ∧ step u = .next v ∧ step v = .next t ∧ u.Running 1 ∧ v.Running 2 ∧
      t = { s with IR := s.mem.read s.PC, PC := BitVec.ofNat 12 ((s.PC.toNat + 1) % 4096), AR := ea, T := 3,
                   trace := t.trace } := by
  have ⟨⟨hasm, hrun, _⟩, _⟩ := hf
  refine ⟨_, _, _, step_eq_recorded hf.1 (timingState_of_atFetch hf),
    step_eq_recorded (n := 1) ⟨hasm, hrun, rfl⟩ (timingState_of_T_eq_one rfl),
    step_eq_recorded (n := 2) ⟨hasm, hrun, rfl⟩
      ((timingState_of_T_eq_two rfl).trans (operandOf_of_addressAfterT2 hea)),
    ⟨hasm, hrun, rfl⟩, ⟨hasm, hrun, rfl⟩, ?_⟩
  rw [← address_add_one]
  rfl

/-- `runInstruction` from a fetch counts T0, T1, T2 and the instruction's ROM rows (R74, R105). -/
theorem runInstruction_answer {s : State} {ea : Address} (hf : s.AtFetch)
    (hea : addressAfterT2 (decode (s.mem.read s.PC)) s.mem = some ea) :
    (runInstruction s).answer = .ok (3 + (romRows (decode (s.mem.read s.PC))).length) := by
  obtain ⟨u, v, t, hu, hv, ht, ⟨-, hu_run, hu_T⟩, ⟨-, hv_run, hv_T⟩, heq⟩ := steps_to_T3 hf hea
  obtain ⟨⟨hasm, hrun, -⟩, -⟩ := hf
  have hIR : t.IR = s.mem.read s.PC := congrArg State.IR heq
  have hT : t.T = 3 := congrArg State.T heq
  have hrt : t.Running t.T := ⟨(congrArg State.assembled heq).trans hasm, (congrArg State.halted heq).trans hrun, rfl⟩
  have hpos := romRows_length_pos (decode (s.mem.read s.PC))
  have hle := romRows_length_le (decode (s.mem.read s.PC))
  have hcount := runInstructionFrom_execute (fuel := 3) (m := (romRows (decode (s.mem.read s.PC))).length - 1) 3 hrt
    (by simp [hT]) (by simp [hT, hIR, terminalState]; omega) (by omega)
  rw [runInstruction, if_neg (by simp [hasm]), if_neg (by simp [hrun]),
    runInstructionFrom_next hu, if_neg (by simp [hu_run, hu_T]),
    runInstructionFrom_next hv, if_neg (by simp [hv_run, hv_T]),
    runInstructionFrom_next ht, if_neg (by simp [hrt.2.1, hT]), hcount, Nat.sub_add_cancel hpos]

end Sys2Proof.Claims
end

section
/-! The memory-reference instructions (41_memory_reference.md R75): what the seven constructors have in common, and
the obligation on their operand forms. -/

namespace Sys2Proof.Claims

open Sys2Proof.Machine

variable {mk : Bool → Address → Instr}

/-- A statement about the memory-reference constructors is one about each of the seven. -/
theorem memoryReferences_cases {P : (Bool → Address → Instr) → Prop} (hand : P .and) (hadd : P .add) (hload : P .load)
    (hstore : P .store) (hbun : P .bun) (hbsa : P .bsa) (hisz : P .isz) (h : mk ∈ memoryReferences) : P mk := by
  simp only [memoryReferences, List.mem_cons, List.not_mem_nil, or_false] at h
  rcases h with rfl | rfl | rfl | rfl | rfl | rfl | rfl <;> assumption

/-- The operand form is the memory operand of the I bit and the field. -/
theorem operandOf_memoryReference (h : mk ∈ memoryReferences) (ind : Bool) (a : Address) :
    operandOf (mk ind a) = memoryOperand ind a :=
  memoryReferences_cases (P := fun mk => operandOf (mk ind a) = memoryOperand ind a)
    rfl rfl rfl rfl rfl rfl rfl h

/-- The ROM rows depend on neither the I bit nor the field (R71, R75). -/
theorem romRows_memoryReference (h : mk ∈ memoryReferences) (ind : Bool) (a : Address) :
    romRows (mk ind a) = romRows (mk false 0) :=
  memoryReferences_cases (P := fun mk => romRows (mk ind a) = romRows (mk false 0))
    rfl rfl rfl rfl rfl rfl rfl h

/-- The word of a memory-reference instruction decodes to it (R52). -/
theorem decode_encode_memoryReference (h : mk ∈ memoryReferences) (ind : Bool) (a : Address) :
    decode (encode (mk ind a)) = mk ind a := by
  refine memoryReferences_cases (P := fun mk => decode (encode (mk ind a)) = mk ind a) ?_ ?_ ?_ ?_ ?_ ?_ ?_ h <;>
    simp [decode, encode, Instr.opcode, Instr.indirectBit, Instr.field]

/-- T2 of a memory-reference instruction is its operand form. -/
theorem exec_memoryReference_T2 (h : mk ∈ memoryReferences) (ind : Bool) (a : Address) {s : State} (hT : s.T = 2) :
    exec (mk ind a) s = memoryOperand ind a s := by
  rw [exec_eq, instructionStep_at_T2 hT, operandOf_memoryReference h]

/-- The effective address, where it exists, is in AR when T2 completes (R75). -/
theorem exec_T2_of_effectiveAddress (h : mk ∈ memoryReferences) {ind : Bool} {a ea : Address} {s : State}
    (hT : s.T = 2) (hea : effectiveAddress ind a s.mem = some ea) :
    exec (mk ind a) s = .next { s with AR := ea, T := 3 } := by
  rw [exec_memoryReference_T2 h ind a hT, memoryOperand_of_effectiveAddress hea, hT]
  rfl

/-- An indirect word above 4095 makes T2 raise OutOfRange (R75, R109). -/
theorem exec_T2_outOfRange (h : mk ∈ memoryReferences) {a : Address} {s : State} (hT : s.T = 2)
    (hr : 4095 < (s.mem.read a).toNat) : exec (mk true a) s = .fault (.outOfRange (s.mem.read a).toNat) := by
  rw [exec_memoryReference_T2 h true a hT, memoryOperand, if_pos rfl, indirectOperand_bad hr]

/-- A memory-reference instruction raises only OutOfRange, in T2 of its indirect form (R75, R113). -/
theorem exec_memoryReference_fault (h : mk ∈ memoryReferences) {ind : Bool} {a : Address} {s : State} {f : Fault}
    (hf : exec (mk ind a) s = .fault f) :
    s.T = 2 ∧ ind = true ∧ 4095 < (s.mem.read a).toNat ∧ f = .outOfRange (s.mem.read a).toNat := by
  have hT : s.T = 2 := (exec_fault hf).1
  rw [exec_memoryReference_T2 h ind a hT] at hf
  exact ⟨hT, memoryOperand_fault hf⟩

/-- The I bit does not change the execute states (R75). -/
theorem exec_memoryReference_ind (h : mk ∈ memoryReferences) (a : Address) {s : State} (hT : s.T ≠ 2) :
    exec (mk true a) s = exec (mk false a) s := by
  rw [exec_eq, exec_eq, instructionStep, instructionStep, if_neg hT, if_neg hT, romRows_memoryReference h true a,
    romRows_memoryReference h false a]

end Sys2Proof.Claims

namespace Sys2Proof.Claims

open Sys2Proof.Machine

/-- Settles O18: T2 is the memory operand, T3 on are ROM rows that the I bit does not change, and the micro-steps of
`runInstruction` are T0, T1, T2 and those rows. -/
theorem memoryReferenceOperandForms : Obligations.MemoryReferenceOperandForms := by
  intro mk h
  have hi : ∀ {ind a} {s : State}, s.mem.read s.PC = encode (mk ind a) → decode (s.mem.read s.PC) = mk ind a :=
    fun hw => hw ▸ decode_encode_memoryReference h _ _
  refine ⟨⟨3 + (romRows (mk false 0)).length, fun ind a s hf hw hea => ?_⟩, fun a s =>
    ⟨fun hT => ⟨exec_T2_of_effectiveAddress h hT rfl,
      fun hr => exec_T2_of_effectiveAddress h hT (if_pos hr), exec_T2_outOfRange h hT⟩,
    fun ind f => exec_memoryReference_fault h, exec_memoryReference_ind h a, fun ind ea hf hw hea => ?_⟩⟩
  · obtain ⟨ea, hea⟩ := Option.ne_none_iff_exists'.mp hea
    rw [runInstruction_answer hf (hi hw ▸ hea), hi hw, romRows_memoryReference h]
  · obtain ⟨u, v, t, hu, hv, ht, -, -, heq⟩ := steps_to_T3 hf (hi hw ▸ hea)
    exact ⟨t, by simp [stepsFrom, hu, hv, ht], hw ▸ heq⟩

end Sys2Proof.Claims
end

section
/-! Where an error comes from (60_exceptions.md R108 to R113): which error kinds a step raises, and for each host
operation the one lemma about its error answers. -/

namespace Sys2Proof.Machine

/-- The error kinds that `step` and `writeMemory` raise (R109, R110). -/
def Fault.IsStepError (f : Fault) : Prop := f = .notAssembled ∨ ∃ addr, f = .outOfRange addr

theorem Fault.IsStepError.ne_syntaxError {f : Fault} (h : f.IsStepError) (k : Nat) : f ≠ .syntaxError k := by
  obtain rfl | ⟨addr, rfl⟩ := h <;> simp

theorem Fault.IsStepError.ne_stepLimitExceeded {f : Fault} (h : f.IsStepError) : f ≠ .stepLimitExceeded := by
  obtain rfl | ⟨addr, rfl⟩ := h <;> simp

/-- A step raises NotAssembled before the first assemble, and OutOfRange from the instruction in IR after it. -/
theorem isStepError_of_step_fault {s : State} {f : Fault} (h : step s = .fault f) : f.IsStepError := by
  cases ha : s.assembled with
  | false =>
    rw [step_unassembled ha] at h
    cases h
    exact .inl rfl
  | true =>
    obtain ⟨-, hx⟩ := step_fault ha h
    obtain ⟨-, -, -, hf⟩ := exec_fault hx
    exact .inr ⟨_, hf⟩

/-- `hostStep` answers an error only where the step raises it (R104). -/
theorem hostStep_err {s : State} {f : Fault} (h : (hostStep s).answer = .err f) : step s = .fault f := by
  unfold hostStep at h
  split at h
  · cases h
    exact step_unassembled ‹_›
  split at h
  · cases h
  cases he : step s with
  | next t => simp [he] at h
  | fault g => simpa [he] using h
  | refused r => simp [he] at h

/-- The loop of `runInstruction` answers an error only where the next step raises it (R105). -/
theorem runInstructionFrom_err {fuel k : Nat} {s : State} {f : Fault}
    (h : (runInstructionFrom fuel k s).answer = .err f) : step (runInstructionFrom fuel k s).state = .fault f := by
  induction fuel generalizing k s with
  | zero => cases h
  | succ fuel ih =>
    cases he : step s with
    | next t =>
      rw [runInstructionFrom_next he] at h ⊢
      split at h
      · cases h
      · rw [if_neg ‹_›]
        exact ih h
    | fault g =>
      rw [runInstructionFrom_fault he] at h ⊢
      cases h
      exact he
    | refused r => simp [runInstructionFrom, he] at h

/-- `runInstruction` answers an error only where the next step raises it (R105). -/
theorem runInstruction_err {s : State} {f : Fault} (h : (runInstruction s).answer = .err f) :
    step (runInstruction s).state = .fault f := by
  unfold runInstruction at h ⊢
  split
  · rw [if_pos ‹_›] at h
    cases h
    exact step_unassembled ‹_›
  rw [if_neg ‹_›] at h
  split
  · rw [if_pos ‹_›] at h
    cases h
  rw [if_neg ‹_›] at h
  exact runInstructionFrom_err h

/-- At the bound, a block that is not halted answers StepLimitExceeded (R106, R114). -/
theorem runToHaltFrom_bound {k : Nat} {s : State} (hh : s.halted = false) :
    runToHaltFrom 0 k s = ⟨s, .err .stepLimitExceeded⟩ := by
  simp [runToHaltFrom, hh]

theorem runToHaltFrom_fault {left k : Nat} {s : State} {f : Fault} (hh : s.halted = false) (h : step s = .fault f) :
    runToHaltFrom (left + 1) k s = ⟨s, .err f⟩ := by
  simp [runToHaltFrom, hh, h]

/-- The loop of `runToHalt` answers an error at its bound, with all its micro-steps done and the block not halted, or
where the next step raises it (R106, R111). -/
theorem runToHaltFrom_err {left k : Nat} {s : State} {f : Fault} (h : (runToHaltFrom left k s).answer = .err f) :
    (f = .stepLimitExceeded ∧ (runToHaltFrom left k s).state.halted = false ∧
        stepsFrom left s = .next (runToHaltFrom left k s).state) ∨
      step (runToHaltFrom left k s).state = .fault f := by
  induction left generalizing k s with
  | zero =>
    cases hh : s.halted with
    | true => simp [runToHaltFrom_halted hh] at h
    | false =>
      rw [runToHaltFrom_bound hh] at h ⊢
      cases h
      exact .inl ⟨rfl, hh, rfl⟩
  | succ left ih =>
    cases hh : s.halted with
    | true => simp [runToHaltFrom_halted hh] at h
    | false =>
      cases he : step s with
      | next t =>
        rw [runToHaltFrom_next hh he] at h ⊢
        rw [stepsFrom, he]
        exact ih h
      | fault g =>
        rw [runToHaltFrom_fault hh he] at h ⊢
        cases h
        exact .inr he
      | refused r => simp [runToHaltFrom, hh, he] at h

/-- On an assembled block `runToHalt` is its loop (R106). -/
theorem runToHalt_assembled {N : Nat} {s : State} (ha : s.assembled = true) :
    runToHalt N s = runToHaltFrom N 0 s := by
  simp [runToHalt, ha]

theorem runToHalt_unassembled {N : Nat} {s : State} (ha : s.assembled = false) :
    runToHalt N s = ⟨s, .err .notAssembled⟩ := by
  simp [runToHalt, ha]

/-- `runToHalt` answers an error at its bound, with all its micro-steps done and the block not halted, or where the
next step raises it (R106, R111). -/
theorem runToHalt_err {N : Nat} {s : State} {f : Fault} (h : (runToHalt N s).answer = .err f) :
    (f = .stepLimitExceeded ∧ (runToHalt N s).state.halted = false ∧
        stepsFrom N s = .next (runToHalt N s).state) ∨
      step (runToHalt N s).state = .fault f := by
  cases ha : s.assembled with
  | false =>
    rw [runToHalt_unassembled ha] at h ⊢
    cases h
    exact .inr (step_unassembled ha)
  | true =>
    rw [runToHalt_assembled ha] at h ⊢
    exact runToHaltFrom_err h

/-- A property that a micro-step keeps is kept by `runToHalt`. -/
theorem runToHalt_keeps {P : State → Prop} (hstep : ∀ s t, P s → step s = .next t → P t) (N : Nat) {s : State}
    (h : P s) : P (runToHalt N s).state := by
  unfold runToHalt
  split
  · exact h
  · exact runToHaltFrom_keeps hstep N 0 h

/-- `writeMemory` answers no error but OutOfRange of its address (R102, R109). -/
theorem writeMemory_err {a w : Nat} {s : State} {f : Fault} (h : (writeMemory a w s).answer = .err f) :
    f = .outOfRange a := by
  by_cases ha : a < Config.memWords
  · rw [writeMemory_ok w s ha] at h
    cases h
  · rw [writeMemory_bad w s (Nat.not_lt.mp ha)] at h
    cases h
    rfl

/-- `assemble` answers no error but SyntaxError, and then keeps the state (R101, R112). -/
theorem assemble_err {lines : List String} {s : State} {f : Fault} (h : (assemble lines s).answer = .err f) :
    (∃ k, f = .syntaxError k) ∧ (assemble lines s).state = s := by
  unfold assemble at h ⊢
  cases he : assembleLines lines with
  | error k =>
    rw [he] at h
    cases h
    exact ⟨⟨k, rfl⟩, rfl⟩
  | ok ws =>
    rw [he] at h
    cases h

end Sys2Proof.Machine

namespace Sys2Proof.Claims

open Sys2Proof.Machine

/-- Settles O47: an error answer of `assemble` keeps the state, and every other operation's error is one that a step or
a write raises, or the bound of `runToHalt`. -/
theorem syntaxErrorOnlyByAssemble : Obligations.SyntaxErrorOnlyByAssemble := by
  refine ⟨fun lines s k h => (assemble_err h).2, fun s k => ⟨fun h => ?_, fun h => ?_, fun N h => ?_, fun a w h => ?_⟩⟩
  · exact (isStepError_of_step_fault (hostStep_err h)).ne_syntaxError k rfl
  · exact (isStepError_of_step_fault (runInstruction_err h)).ne_syntaxError k rfl
  · obtain ⟨hf, -⟩ | hf := runToHalt_err h
    · cases hf
    · exact (isStepError_of_step_fault hf).ne_syntaxError k rfl
  · cases writeMemory_err h

end Sys2Proof.Claims
end

section
/-! No refusal (40_instruction_cycle.md R71): an execute state that the instruction in IR has leads to another such
state or to the boundary, and a step from it is not refused. -/

namespace Sys2Proof.Machine

/-- If the timing state is an execute state, then the instruction in IR has it (R71): the part of `State.Legal` that
the ROM's coverage needs. -/
def State.InRom (s : State) : Prop := 3 ≤ s.T.toNat → s.T.toNat ≤ terminalState (decode s.IR)

theorem State.Legal.inRom {s : State} (h : s.Legal) : s.InRom := h.execute

/-- Below T3 nothing is asked. -/
theorem State.inRom_of_T {s : State} {t : TimingState} (hT : s.T = t) (ht : t.toNat < 3) : s.InRom := fun h3 => by
  rw [hT] at h3
  omega

/-- The terminal entry leads to T0, and an earlier one to an execute state that the instruction still has (R22, R70). -/
theorem inRom_executeEntry {s : State} {e : RomEntry} (he : romEntry (romRows (decode s.IR)) s.T.toNat = some e) :
    (executeEntry e s).InRom := by
  have hT := executeEntry_T e s
  cases hlast : e.last with
  | true =>
    rw [hlast, if_pos rfl] at hT
    exact State.inRom_of_T hT (by decide)
  | false =>
    rw [hlast, if_neg Bool.false_ne_true] at hT
    have hne : s.T.toNat ≠ terminalState (decode s.IR) := by simpa [hlast] using romEntry_last he
    obtain ⟨-, hle, -⟩ := romEntry_some he
    have hlen := romRows_length_le (decode s.IR)
    intro _
    rw [hT, (executeEntry_keeps e s).1, timingState_add_one_toNat (by omega)]
    unfold terminalState at hne ⊢
    omega

/-- T2 leads to T3, which every instruction has, and the execute states stay in the ROM. -/
theorem inRom_exec {s t : State} (h : exec (decode s.IR) s = .next t) : t.InRom := by
  obtain ⟨hT, ht⟩ | ⟨e, he, rfl⟩ := exec_next h
  · have hT3 : t.T = 3 := (congrArg State.T ht).trans (by rw [hT]; rfl)
    have hpos := romRows_length_pos (decode t.IR)
    intro _
    rw [hT3, terminalState, show (3 : TimingState).toNat = 3 from rfl]
    omega
  · exact inRom_executeEntry he

/-- Every step keeps the timing state in the ROM (R71). -/
theorem step_keeps_inRom (s t : State) (hs : s.InRom) (h : step s = .next t) : t.InRom := by
  obtain ⟨-, ⟨-, rfl⟩ | ⟨-, u, hu, rfl⟩⟩ := step_next h
  · exact hs
  show u.InRom
  obtain ⟨-, rfl⟩ | ⟨-, rfl⟩ | ⟨-, -, hx⟩ := timingState_next hu
  · rw [addressState_eq]
    split
    · exact State.inRom_of_T (t := 0) rfl (by decide)
    · exact State.inRom_of_T (t := 1) rfl (by decide)
  · exact State.inRom_of_T (t := 2) rfl (by decide)
  · exact inRom_exec hx

/-- The timing states past T2 are numbered from three on. -/
theorem three_le_toNat {t : TimingState} (h0 : t ≠ 0) (h1 : t ≠ 1) (h2 : t ≠ 2) : 3 ≤ t.toNat := by
  bv_omega

/-- A timing state in the ROM is not refused: T0 and T1 have one outcome, T2 is the operand form, and each execute
state has its entry (R71). -/
theorem timingState_not_refused {s : State} (hs : s.InRom) (r : Refusal) : timingState s ≠ .refused r := by
  unfold timingState
  split
  · simp
  split
  · simp
  rw [exec_eq]
  obtain ⟨-, h⟩ | ⟨-, e, -, h⟩ | ⟨h2, hnone, -⟩ :=
    instructionStep_cases (operandOf (decode s.IR)) (romRows (decode s.IR)) s
  · obtain ⟨ind, hind⟩ := operandOf_eq (decode s.IR)
    rw [h, hind]
    exact memoryOperand_not_refused ind _ s r
  · simp [h]
  · have h3 : 3 ≤ s.T.toNat := three_le_toNat ‹_› ‹_› h2
    obtain ⟨e, he⟩ := romEntry_defined h3 (hs h3)
    rw [he] at hnone
    cases hnone

/-- A step is not refused while the timing state is in the ROM (R71). -/
theorem step_not_refused {s : State} (hs : s.InRom) (r : Refusal) : step s ≠ .refused r := by
  cases ha : s.assembled with
  | false => simp [step_unassembled ha]
  | true =>
    cases hh : s.halted with
    | true => simp [step_halted ha hh]
    | false =>
      rw [step_running ha hh, cycleStep]
      cases he : timingState s with
      | next t => simp
      | fault f => simp
      | refused q => exact absurd he (timingState_not_refused hs q)

end Sys2Proof.Machine

namespace Sys2Proof.Claims

open Sys2Proof.Machine

/-- Settles O53: the bound is the one error of `runToHalt` that no step raises, and the micro-steps it did keep the
timing state in the ROM, so that the next one is not refused. -/
theorem stepLimitExceededAtTheBoundOnly : Obligations.StepLimitExceededAtTheBoundOnly := by
  refine ⟨fun N s h => ?_, fun s => ⟨fun h => ?_, fun h => ?_, fun a w h => ?_, fun lines h => ?_⟩⟩
  · obtain ⟨-, hrun, hsteps⟩ | hf := runToHalt_err h
    · exact ⟨hrun, hsteps, fun hs => step_not_refused (runToHalt_keeps step_keeps_inRom N hs.inRom)⟩
    · exact absurd rfl (isStepError_of_step_fault hf).ne_stepLimitExceeded
  · exact (isStepError_of_step_fault (hostStep_err h)).ne_stepLimitExceeded rfl
  · exact (isStepError_of_step_fault (runInstruction_err h)).ne_stepLimitExceeded rfl
  · cases writeMemory_err h
  · obtain ⟨⟨k, hk⟩, -⟩ := assemble_err h
    cases hk

end Sys2Proof.Claims
end

section
/-! Decoding and encoding (30_encoding.md R48 to R54): a word and its well-formed instruction determine each other, and
the opcode map read off the constant of each row. -/

namespace Sys2Proof

/-- A field without a register-reference variant decodes to NOP (R52). -/
theorem decodeRegisterReference_eq_nop {a : Address} (h : a ∉ oneHotFields) : decodeRegisterReference a = .nop a := by
  simp only [oneHotFields, List.mem_cons, List.not_mem_nil, or_false, not_or] at h
  simp only [decodeRegisterReference, h, if_false]

/-- The word of a well-formed instruction decodes to it (R52, R53). -/
theorem decode_encode {i : Instr} (h : i.WellFormed = true) : decode (encode i) = i := by
  cases i with
  | nop a =>
    have ha : a ∉ oneHotFields := by simpa [Instr.WellFormed] using h
    simpa [decode, encode, Instr.opcode, Instr.indirectBit, Instr.field] using decodeRegisterReference_eq_nop ha
  | cla | cle | cma | cme | cir | cil | inc | spa | sna | sza | sze | halt => decide
  | _ => simp [decode, encode, Instr.opcode, Instr.indirectBit, Instr.field]

/-- A word is the word of what it decodes to (R52, R54). -/
theorem encode_decode (w : Word) : encode (decode w) = w := by
  obtain ⟨-, hind, hop, hfield⟩ := decode_parts w
  rw [encode, hind, hop, hfield, packWord_fields]

/-- The word of an instruction, as the constant of its I bit and opcode joined with its field (R48, R53). -/
theorem encode_eq_or_field (i : Instr) (base : Nat)
    (hb : base = i.indirectBit.toNat * 0x8000 + i.opcode.toNat * 0x1000) :
    encode i = BitVec.ofNat 16 base ||| i.field.setWidth 16 :=
  (ofNat_or_field hb i.field).symm

/-- The opcode map, row by row: the constant of a well-formed instruction with its field decodes to it (R53). -/
theorem decode_or_field (i : Instr) (base : Nat) (hw : i.WellFormed = true)
    (hb : base = i.indirectBit.toNat * 0x8000 + i.opcode.toNat * 0x1000 := by
      simp [Instr.opcode, Instr.indirectBit]) :
    decode (BitVec.ofNat 16 base ||| i.field.setWidth 16) = i := by
  rw [← encode_eq_or_field i base hb, decode_encode hw]

/-- The operation fields of the twelve variants are the powers of two (R53). -/
theorem twoPow_mem_oneHotFields : ∀ k < 12, BitVec.twoPow 12 k ∈ oneHotFields := by decide

end Sys2Proof

namespace Sys2Proof.Claims

open Sys2Proof

/-- A field with one bit set is a power of two. -/
theorem eq_twoPow_of_bitsSet_eq_one {b : Address} (h : bitsSet b = 1) : ∃ k < 12, b = BitVec.twoPow 12 k := by
  rw [bitsSet, List.countP_eq_length_filter, List.length_eq_one_iff] at h
  obtain ⟨k, hk⟩ := h
  have hbit : ∀ j, j ∈ [k] ↔ j < 12 ∧ b.getLsbD j = true := fun j => by simp [← hk]
  have hk12 : k < 12 := ((hbit k).mp (by simp)).1
  refine ⟨k, hk12, BitVec.eq_of_getLsbD_eq fun j hj => ?_⟩
  have hj' := hbit j
  rw [BitVec.getLsbD_twoPow, Bool.eq_iff_iff]
  simp only [List.mem_singleton, hj, true_and] at hj'
  simp [← hj', hk12, eq_comm]

/-- The fields of the register-reference variants are those with one bit set (R52, R53). -/
theorem mem_oneHotFields_iff (b : Address) : b ∈ oneHotFields ↔ bitsSet b = 1 := by
  constructor
  · exact (by decide : ∀ b ∈ oneHotFields, bitsSet b = 1) b
  · intro h
    obtain ⟨k, hk, rfl⟩ := eq_twoPow_of_bitsSet_eq_one h
    exact twoPow_mem_oneHotFields k hk

/-- NOP stands for a word exactly when its field does not have one bit set. -/
theorem nop_wellFormed_iff (b : Address) : (Instr.nop b).WellFormed = true ↔ bitsSet b ≠ 1 := by
  rw [ne_eq, ← mem_oneHotFields_iff b]
  simp [Instr.WellFormed]

/-- Settles O1: each constructor's word has its own I bit, opcode and field, and a NOP's field is no variant's. -/
theorem decodeOfEncodeIsIdentity : Obligations.DecodeOfEncodeIsIdentity :=
  fun _ => decode_encode

/-- Settles O2: the decoded instruction is well formed and has the word's three fields, which are the word. -/
theorem encodeOfDecodeIsIdentity : Obligations.EncodeOfDecodeIsIdentity :=
  fun w => ⟨(decode_parts w).1, encode_decode w⟩

/-- Settles O3: each row is `decode_or_field` of its instruction; a field that has not one bit set is a NOP's. -/
theorem decoderFollowsOpcodeMap : Obligations.DecoderFollowsOpcodeMap := by
  refine ⟨fun a => ⟨?_, ?_, ?_, ?_, ?_, ?_, ?_, ?_, ?_, ?_, ?_, ?_, ?_, ?_, ?_⟩, by decide, fun a ha => ?_⟩
  · rw [← BitVec.zero_or (x := a.setWidth 16)]
    exact decode_or_field (.and false a) 0x0000 rfl
  · exact decode_or_field (.add false a) 0x1000 rfl
  · exact decode_or_field (.load false a) 0x2000 rfl
  · exact decode_or_field (.store false a) 0x3000 rfl
  · exact decode_or_field (.bun false a) 0x4000 rfl
  · exact decode_or_field (.bsa false a) 0x5000 rfl
  · exact decode_or_field (.isz false a) 0x6000 rfl
  · exact decode_or_field (.and true a) 0x8000 rfl
  · exact decode_or_field (.add true a) 0x9000 rfl
  · exact decode_or_field (.load true a) 0xA000 rfl
  · exact decode_or_field (.store true a) 0xB000 rfl
  · exact decode_or_field (.bun true a) 0xC000 rfl
  · exact decode_or_field (.bsa true a) 0xD000 rfl
  · exact decode_or_field (.isz true a) 0xE000 rfl
  · exact decode_or_field (.io a) 0xF000 rfl
  · exact decode_or_field (.nop a) 0x7000 ((nop_wellFormed_iff a).mpr ha)

/-- Settles O4: six closed words of the decoder. -/
theorem specWordsDecode : Obligations.SpecWordsDecode := by
  unfold Obligations.SpecWordsDecode
  decide

end Sys2Proof.Claims
end

section
/-! The microinstruction ROM read by its micro-operations (40_instruction_cycle.md R71, R72): the outcome of an execute
state, where each micro-operation stands, and so which micro-step can change which part of the state. -/

namespace Sys2Proof.Machine

/-! ### The outcome of an execute state -/

/-- In an execute state, `exec` is the instruction's ROM entry (R70). -/
theorem exec_of_romEntry {i : Instr} {s : State} {e : RomEntry} (he : romEntry (romRows i) s.T.toNat = some e) :
    exec i s = .next (executeEntry e s) := by
  have h3 := (romEntry_some he).1
  have hT : s.T ≠ 2 := fun hT => by simp [hT] at h3
  rw [exec_eq, instructionStep, if_neg hT, he]

/-- Row `n` of an instruction is what it does in timing state `n + 3` (R71). -/
theorem exec_row {i : Instr} {s : State} {e : RomEntry} (n : Nat) (hT : s.T.toNat = n + 3)
    (he : (romRows i)[n]? = some e) : exec i s = .next (executeEntry e s) :=
  exec_of_romEntry (by simp [romEntry, hT, he])

/-- A row that is not the last one writes, and leads to the next timing state (R22, R70). -/
theorem exec_row_advance {i : Instr} {s : State} {ops : List MicroOp} (n : Nat) (hT : s.T.toNat = n + 3)
    (he : (romRows i)[n]? = some ⟨ops, false⟩) : exec i s = .next ((applyOps ops s).setT (s.T + 1)) :=
  exec_row n hT he

/-- The last row writes, and ends the instruction cycle (R22, R70). -/
theorem exec_row_last {i : Instr} {s : State} {ops : List MicroOp} (n : Nat) (hT : s.T.toNat = n + 3)
    (he : (romRows i)[n]? = some ⟨ops, true⟩) : exec i s = .next ((applyOps ops s).setT 0) :=
  exec_row n hT he

/-- T3 of the instructions that read their operand (R76, R77, R78, R82). -/
theorem exec_readOperand_T3 {i : Instr} {s : State} (hT : s.T = 3) (he : (romRows i)[0]? = some ⟨[.drM], false⟩) :
    exec i s = .next { s with DR := s.mem.read s.AR, T := 4 } := by
  rw [exec_row_advance 0 (congrArg BitVec.toNat hT) he, hT]
  rfl

/-- T3 of STORE (R79). -/
theorem exec_store_T3 (ind : Bool) (a : Address) {s : State} (hT : s.T = 3) :
    exec (.store ind a) s = .next { s with mem := s.mem.write s.AR s.AC, T := 0 } := by
  rw [exec_row_last 0 (congrArg BitVec.toNat hT) rfl]
  rfl

/-- T3 of BSA (R81). -/
theorem exec_bsa_T3 (ind : Bool) (a : Address) {s : State} (hT : s.T = 3) :
    exec (.bsa ind a) s =
      .next { s with mem := s.mem.write s.AR (s.PC.setWidth 16), AR := s.AR + 1, T := 4 } := by
  rw [exec_row_advance 0 (congrArg BitVec.toNat hT) rfl, hT]
  rfl

/-- T4 of ISZ (R82). -/
theorem exec_isz_T4 (ind : Bool) (a : Address) {s : State} (hT : s.T = 4) :
    exec (.isz ind a) s = .next { s with DR := s.DR + 1, T := 5 } := by
  rw [exec_row_advance 1 (congrArg BitVec.toNat hT) rfl, hT]
  rfl

/-- T5 of ISZ (R82). -/
theorem exec_isz_T5 (ind : Bool) (a : Address) {s : State} (hT : s.T = 5) :
    exec (.isz ind a) s =
      .next { s with mem := s.mem.write s.AR s.DR, PC := skipTarget (isZeroWord s.DR) s.PC, T := 0 } := by
  rw [exec_row_last 2 (congrArg BitVec.toNat hT) rfl]
  rfl

/-- T4 of LOAD (R78). -/
theorem exec_load_T4 (ind : Bool) (a : Address) {s : State} (hT : s.T = 4) :
    exec (.load ind a) s = .next { s with AC := s.DR, T := 0 } := by
  rw [exec_row_last 1 (congrArg BitVec.toNat hT) rfl]
  rfl

/-- T3 of CLA (R85). -/
theorem exec_cla_T3 {s : State} (hT : s.T = 3) : exec .cla s = .next { s with AC := 0, T := 0 } := by
  rw [exec_row_last 0 (congrArg BitVec.toNat hT) rfl]
  rfl

/-- T4 of ADD (R77). -/
theorem exec_add_T4 (ind : Bool) (a : Address) {s : State} (hT : s.T = 4) :
    exec (.add ind a) s = .next { s with AC := sumWord s.AC s.DR, E := sumCarry s.AC s.DR, T := 0 } := by
  rw [exec_row_last 1 (congrArg BitVec.toNat hT) rfl]
  rfl

/-- T3 of HALT (R96). -/
theorem exec_halt_T3 {s : State} (hT : s.T = 3) : exec .halt s = .next { s with halted := true, T := 0 } := by
  rw [exec_row_last 0 (congrArg BitVec.toNat hT) rfl]
  rfl

/-! ### Where each micro-operation stands -/

/-- The instructions and the timing state whose ROM entry holds a micro-operation (R71, read by its columns). -/
def MicroOp.StandsIn (i : Instr) (t : TimingState) : MicroOp → Prop
  | .drM => t = 3 ∧ ∃ ind a, i = .and ind a ∨ i = .add ind a ∨ i = .load ind a ∨ i = .isz ind a
  | .acAnd => t = 4 ∧ ∃ ind a, i = .and ind a
  | .acAdd => t = 4 ∧ ∃ ind a, i = .add ind a
  | .acDr => t = 4 ∧ ∃ ind a, i = .load ind a
  | .mAc => t = 3 ∧ ∃ ind a, i = .store ind a
  | .pcAr => (t = 3 ∧ ∃ ind a, i = .bun ind a) ∨ (t = 4 ∧ ∃ ind a, i = .bsa ind a)
  | .mPc | .arInc => t = 3 ∧ ∃ ind a, i = .bsa ind a
  | .drInc => t = 4 ∧ ∃ ind a, i = .isz ind a
  | .mDr | .skipDrz => t = 5 ∧ ∃ ind a, i = .isz ind a
  | .acClr => t = 3 ∧ i = .cla
  | .eClr => t = 3 ∧ i = .cle
  | .acCmp => t = 3 ∧ i = .cma
  | .eCmp => t = 3 ∧ i = .cme
  | .rotR => t = 3 ∧ i = .cir
  | .rotL => t = 3 ∧ i = .cil
  | .acInc => t = 3 ∧ i = .inc
  | .skipAcPos => t = 3 ∧ i = .spa
  | .skipAcNeg => t = 3 ∧ i = .sna
  | .skipAcZ => t = 3 ∧ i = .sza
  | .skipEZ => t = 3 ∧ i = .sze
  | .hlt => t = 3 ∧ i = .halt

/-- The entry of a timing state is the first, second or third row (R71). -/
theorem romEntry_row {i : Instr} {t : TimingState} {e : RomEntry} (h : romEntry (romRows i) t.toNat = some e) :
    (t = 3 ∧ (romRows i)[0]? = some e) ∨ (t = 4 ∧ (romRows i)[1]? = some e) ∨
      (t = 5 ∧ (romRows i)[2]? = some e) := by
  obtain ⟨h3, hl, -⟩ := romEntry_some h
  have hlen := romRows_length_le i
  have hT : t.toNat = 3 ∨ t.toNat = 4 ∨ t.toNat = 5 := by omega
  rw [romEntry, if_neg (by omega)] at h
  rcases hT with hT | hT | hT <;> rw [hT] at h
  · exact .inl ⟨timingState_eq_of_toNat hT, h⟩
  · exact .inr (.inl ⟨timingState_eq_of_toNat hT, h⟩)
  · exact .inr (.inr ⟨timingState_eq_of_toNat hT, h⟩)

/-- The micro-operations of a ROM entry stand there by the table: row by row, its 21 columns (R71). -/
theorem standsIn_of_romEntry {i : Instr} {t : TimingState} {e : RomEntry}
    (h : romEntry (romRows i) t.toNat = some e) : ∀ op ∈ e.ops, op.StandsIn i t := by
  rcases romEntry_row h with ⟨rfl, he⟩ | ⟨rfl, he⟩ | ⟨rfl, he⟩
  · cases i <;> cases he <;> simp [MicroOp.StandsIn]
  · cases i <;> cases he <;> simp [MicroOp.StandsIn]
  · cases i with
    | isz ind a => cases he; simp [MicroOp.StandsIn]
    | _ => cases he

/-! ### Which micro-operations write what -/

/-- A part of the state that no micro-operation of an entry writes is as before it (R70). -/
theorem executeEntry_view {α : Type} {view : State → α} {e : RomEntry} {s : State}
    (hT : ∀ (acc : State) (v : TimingState), view (acc.setT v) = view acc)
    (hops : ∀ op ∈ e.ops, ∀ acc, view (op.apply s acc) = view acc) : view (executeEntry e s) = view s := by
  have hfold : view (applyOps e.ops s) = view s :=
    List.foldlRecOn e.ops (motive := fun acc : State => view acc = view s) _ rfl fun acc hacc op hop =>
      (hops op hop acc).trans hacc
  unfold executeEntry
  split <;> exact (hT _ _).trans hfold

/-- A part of the state that an execute state changes is written by a micro-operation that stands there. -/
theorem exists_writer {α : Type} {view : State → α} (writers : List MicroOp) {i : Instr} {s : State} {e : RomEntry}
    (hT : ∀ (acc : State) (v : TimingState), view (acc.setT v) = view acc)
    (hkeep : ∀ op ∉ writers, ∀ s acc : State, view (op.apply s acc) = view acc)
    (he : romEntry (romRows i) s.T.toNat = some e) (hne : view (executeEntry e s) ≠ view s) :
    ∃ op ∈ writers, op.StandsIn i s.T := by
  by_contra hno
  refine hne (executeEntry_view hT fun op hop => hkeep op (fun hw => hno ⟨op, hw, ?_⟩) s)
  exact standsIn_of_romEntry he op hop

/-- The micro-operations that write AC (R72). -/
def acWriters : List MicroOp := [.acAnd, .acAdd, .acDr, .acClr, .acCmp, .rotR, .rotL, .acInc]

/-- The micro-operations that write E (R72). -/
def eWriters : List MicroOp := [.acAdd, .eClr, .eCmp, .rotR, .rotL]

/-- The micro-operations that write DR (R72). -/
def drWriters : List MicroOp := [.drM, .drInc]

/-- The micro-operations that write memory (R72). -/
def memWriters : List MicroOp := [.mAc, .mPc, .mDr]

theorem MicroOp.apply_AC {op : MicroOp} (h : op ∉ acWriters) (s acc : State) : (op.apply s acc).AC = acc.AC := by
  cases op with
  | acAnd | acAdd | acDr | acClr | acCmp | rotR | rotL | acInc => simp [acWriters] at h
  | _ => rfl

theorem MicroOp.apply_E {op : MicroOp} (h : op ∉ eWriters) (s acc : State) : (op.apply s acc).E = acc.E := by
  cases op with
  | acAdd | eClr | eCmp | rotR | rotL => simp [eWriters] at h
  | _ => rfl

theorem MicroOp.apply_DR {op : MicroOp} (h : op ∉ drWriters) (s acc : State) : (op.apply s acc).DR = acc.DR := by
  cases op with
  | drM | drInc => simp [drWriters] at h
  | _ => rfl

theorem MicroOp.apply_mem {op : MicroOp} (h : op ∉ memWriters) (s acc : State) : (op.apply s acc).mem = acc.mem := by
  cases op with
  | mAc | mPc | mDr => simp [memWriters] at h
  | _ => rfl

theorem MicroOp.apply_AR {op : MicroOp} (h : op ≠ .arInc) (s acc : State) : (op.apply s acc).AR = acc.AR := by
  cases op with
  | arInc => exact absurd rfl h
  | _ => rfl

/-! ### Which micro-steps of an instruction write what -/

section
variable {i : Instr} {s t : State} (h : exec i s = .next t)
include h

/-- AC is written in T4 of AND, ADD, LOAD and in T3 of CLA, CMA, CIR, CIL, INC (R16). -/
theorem exec_AC_ne (hne : t.AC ≠ s.AC) :
    (s.T = 4 ∧ ∃ ind a, i = .and ind a ∨ i = .add ind a ∨ i = .load ind a) ∨
      (s.T = 3 ∧ (i = .cla ∨ i = .cma ∨ i = .cir ∨ i = .cil ∨ i = .inc)) := by
  rcases exec_next h with ⟨-, ht⟩ | ⟨e, he, rfl⟩
  · exact absurd (congrArg State.AC ht) hne
  obtain ⟨op, hop, hs⟩ := exists_writer acWriters (fun _ _ => rfl) (fun _ => MicroOp.apply_AC) he hne
  simp only [acWriters, List.mem_cons, List.not_mem_nil, or_false] at hop
  rcases hop with rfl | rfl | rfl | rfl | rfl | rfl | rfl | rfl <;> obtain ⟨hT, hi⟩ := hs
  · exact .inl ⟨hT, hi.imp fun _ h => h.imp fun _ => .inl⟩
  · exact .inl ⟨hT, hi.imp fun _ h => h.imp fun _ h => .inr (.inl h)⟩
  · exact .inl ⟨hT, hi.imp fun _ h => h.imp fun _ h => .inr (.inr h)⟩
  all_goals exact .inr ⟨hT, by simp [hi]⟩

/-- E is written in T4 of ADD and in T3 of CLE, CME, CIR, CIL (R17). -/
theorem exec_E_ne (hne : t.E ≠ s.E) :
    (s.T = 4 ∧ ∃ ind a, i = .add ind a) ∨ (s.T = 3 ∧ (i = .cle ∨ i = .cme ∨ i = .cir ∨ i = .cil)) := by
  rcases exec_next h with ⟨-, ht⟩ | ⟨e, he, rfl⟩
  · exact absurd (congrArg State.E ht) hne
  obtain ⟨op, hop, hs⟩ := exists_writer eWriters (fun _ _ => rfl) (fun _ => MicroOp.apply_E) he hne
  simp only [eWriters, List.mem_cons, List.not_mem_nil, or_false] at hop
  rcases hop with rfl | rfl | rfl | rfl | rfl
  · exact .inl hs
  all_goals exact .inr ⟨hs.1, by simp [hs.2]⟩

/-- DR is written in T3 of AND, ADD, LOAD, ISZ and in T4 of ISZ (R21). -/
theorem exec_DR_ne (hne : t.DR ≠ s.DR) :
    (s.T = 3 ∧ ∃ ind a, i = .and ind a ∨ i = .add ind a ∨ i = .load ind a ∨ i = .isz ind a) ∨
      (s.T = 4 ∧ ∃ ind a, i = .isz ind a) := by
  rcases exec_next h with ⟨-, ht⟩ | ⟨e, he, rfl⟩
  · exact absurd (congrArg State.DR ht) hne
  obtain ⟨op, hop, hs⟩ := exists_writer drWriters (fun _ _ => rfl) (fun _ => MicroOp.apply_DR) he hne
  simp only [drWriters, List.mem_cons, List.not_mem_nil, or_false] at hop
  rcases hop with rfl | rfl
  · exact .inl hs
  · exact .inr hs

/-- AR is written in T2, and after it in T3 of BSA alone (R19). -/
theorem exec_AR_ne (hne : t.AR ≠ s.AR) : s.T = 2 ∨ (s.T = 3 ∧ ∃ ind a, i = .bsa ind a) := by
  rcases exec_next h with ⟨hT, -⟩ | ⟨e, he, rfl⟩
  · exact .inl hT
  obtain ⟨op, hop, hs⟩ := exists_writer [.arInc] (fun _ _ => rfl)
    (fun _ hop => MicroOp.apply_AR (by simpa using hop)) he hne
  rw [List.mem_singleton.mp hop] at hs
  exact .inr hs

/-- The halt flag is written in T3 of HALT alone (R23). -/
theorem exec_halted_ne (hne : t.halted ≠ s.halted) : s.T = 3 ∧ i = .halt := by
  rcases exec_next h with ⟨-, ht⟩ | ⟨e, he, rfl⟩
  · exact absurd (congrArg State.halted ht) hne
  obtain ⟨op, hop, hs⟩ := exists_writer [.hlt] (fun _ _ => rfl)
    (fun _ hop => MicroOp.apply_halted (by simpa using hop)) he hne
  rw [List.mem_singleton.mp hop] at hs
  exact hs

/-- Memory is written in T3 of STORE and BSA and in T5 of ISZ, each with its word and at AR (R39). -/
theorem exec_mem_ne (hne : t.mem ≠ s.mem) :
    (s.T = 3 ∧ (∃ ind a, i = .store ind a) ∧ t.mem = s.mem.write s.AR s.AC) ∨
      (s.T = 3 ∧ (∃ ind a, i = .bsa ind a) ∧ t.mem = s.mem.write s.AR (s.PC.setWidth 16)) ∨
      (s.T = 5 ∧ (∃ ind a, i = .isz ind a) ∧ t.mem = s.mem.write s.AR s.DR) := by
  rcases exec_next h with ⟨-, ht⟩ | ⟨e, he, ht⟩
  · exact absurd (congrArg State.mem ht) hne
  obtain ⟨op, hop, hs⟩ := exists_writer memWriters (fun _ _ => rfl) (fun _ => MicroOp.apply_mem) he (ht ▸ hne)
  simp only [memWriters, List.mem_cons, List.not_mem_nil, or_false] at hop
  rcases hop with rfl | rfl | rfl <;> obtain ⟨hT, ind, a, rfl⟩ := hs
  · rw [exec_store_T3 ind a hT] at h
    cases h
    exact .inl ⟨hT, ⟨ind, a, rfl⟩, rfl⟩
  · rw [exec_bsa_T3 ind a hT] at h
    cases h
    exact .inr (.inl ⟨hT, ⟨ind, a, rfl⟩, rfl⟩)
  · rw [exec_isz_T5 ind a hT] at h
    cases h
    exact .inr (.inr ⟨hT, ⟨ind, a, rfl⟩, rfl⟩)

/-- The timing state advances by one, or the instruction cycle ends (R22). -/
theorem exec_T : t.T = s.T + 1 ∨ t.T = 0 := by
  rcases exec_next h with ⟨-, ht⟩ | ⟨e, -, rfl⟩
  · exact .inl (congrArg State.T ht)
  · rw [executeEntry_T]
    split
    · exact .inr rfl
    · exact .inl rfl

end

end Sys2Proof.Machine
end

section
/-! Frames and writers (10_state.md R16 to R26, 20_memory.md R39): what an instruction's micro-step leaves unchanged,
and which step of the block can change a register, a flag or a cell. -/

namespace Sys2Proof.Machine

/-- Only the cell at AR can change in a micro-step of an instruction (R39). -/
theorem exec_read_other {i : Instr} {s t : State} (h : exec i s = .next t) {b : Address} (hb : b ≠ s.AR) :
    t.mem.read b = s.mem.read b := by
  by_cases hm : t.mem = s.mem
  · rw [hm]
  · rcases exec_mem_ne h hm with ⟨-, -, hw⟩ | ⟨-, -, hw⟩ | ⟨-, -, hw⟩ <;>
      rw [hw, Memory.read_write_other _ _ hb]

end Sys2Proof.Machine

namespace Sys2Proof.Claims

open Sys2Proof.Machine

/-- Settles O35: a changed part has a writer (`exec_AC_ne` and its companions), and the instruction is none of its. -/
theorem nonStoringInstructionsFrame : Obligations.NonStoringInstructionsFrame := by
  intro i s t h hns
  obtain ⟨hIR, hasm, hplen, htrace⟩ := exec_keeps h
  have hmem : t.mem = s.mem := by
    by_contra hne
    have := exec_mem_ne h hne
    grind
  refine ⟨fun a => by rw [hmem], hIR, hasm, hplen, htrace, fun hT => ?_, fun hi => ?_, fun hi _ _ _ _ _ => ?_,
    fun hi _ _ _ _ => ?_, fun hi _ _ _ _ => ?_, fun hi => ?_⟩ <;> by_contra hne
  · have := exec_AR_ne h hne
    grind
  · have := exec_DR_ne h hne
    grind
  · have := exec_AC_ne h hne
    grind
  · have := exec_E_ne h hne
    grind
  · have := exec_PC_ne h hne
    grind
  · exact hi (exec_halted_ne h hne).2

/-- Settles O36: as O35, with memory changed only in the storing states and only at AR. -/
theorem storingInstructionsFrame : Obligations.StoringInstructionsFrame := by
  rintro i s t h ⟨ind, a, hi⟩
  obtain ⟨hIR, hasm, hplen, htrace⟩ := exec_keeps h
  have hmem (hno : ¬ t.mem ≠ s.mem) (b : Address) : t.mem.read b = s.mem.read b := by rw [not_not.mp hno]
  refine ⟨fun b => exec_read_other h, fun hi' hT => hmem fun hne => ?_, fun hi' hT => hmem fun hne => ?_, ?_, ?_, hIR,
    ?_, hasm, hplen, htrace, fun hi' => ?_, fun hT hi' => ?_, fun hi' => ?_⟩
  · have := exec_mem_ne h hne
    grind
  · have := exec_mem_ne h hne
    grind
  all_goals by_contra hne
  · have := exec_AC_ne h hne
    grind
  · have := exec_E_ne h hne
    grind
  · have := exec_halted_ne h hne
    grind
  · have := exec_DR_ne h hne
    grind
  · have := exec_AR_ne h hne
    grind
  · have := exec_PC_ne h hne
    grind

/-- A part of the state that T0 and T1 keep, and that the trace entry is no part of, changes in a step only where the
decoded instruction's micro-step changes it (R65). -/
theorem exec_of_step_ne {α : Type} {view : State → α} {s t : State} (h : step s = .next t) (hne : view t ≠ view s)
    (htrace : ∀ (u : State) (tr : List TraceEntry), view { u with trace := tr } = view u)
    (hT0 : view (addressState s) = view s) (hT1 : view (fetchState s) = view s) :
    ∃ u, exec (decode s.IR) s = .next u ∧ view t = view u := by
  cases hh : s.halted with
  | true =>
    rw [step_halted (step_next h).1 hh] at h
    cases h
    exact absurd rfl hne
  | false =>
    obtain ⟨u, rfl, ⟨-, rfl⟩ | ⟨-, rfl⟩ | ⟨-, -, hx⟩⟩ := step_running_next h hh
    · exact absurd ((htrace _ _).trans hT0) hne
    · exact absurd ((htrace _ _).trans hT1) hne
    · exact ⟨u, hx, htrace _ _⟩

/-- T0 writes AR, T and the halt flag alone. -/
theorem addressState_frame {α : Type} {view : State → α} (s : State)
    (hhalt : view { s with halted := true, T := 0 } = view s)
    (hAR : view { s with AR := s.PC, T := 1 } = view s) : view (addressState s) = view s := by
  rw [addressState_eq]
  split
  · exact hhalt
  · exact hAR

/-- Settles O42: memory changes only as the instruction's micro-step writes it, at AR. -/
theorem stepWritesAtMostOneCell : Obligations.StepWritesAtMostOneCell := by
  intro s t hwf h a hne
  have hm : t.mem ≠ s.mem := fun hm => hne (by rw [hm])
  obtain ⟨u, hx, htu⟩ := exec_of_step_ne h hm (fun _ _ => rfl) (addressState_frame s rfl rfl) rfl
  rw [htu] at hne hm ⊢
  have ha : a = s.AR := by_contra fun hb => hne (exec_read_other hx hb)
  have hread (v : Word) (hw : u.mem = s.mem.write s.AR v) : u.mem.read a = v := by
    rw [hw, ha, Memory.read_write_same _ _ hwf]
  refine ⟨ha, ?_⟩
  rcases exec_mem_ne hx hm with ⟨hT, hi, hw⟩ | ⟨hT, hi, hw⟩ | ⟨hT, hi, hw⟩
  · exact .inl ⟨hT, hi, hread _ hw⟩
  · exact .inr (.inl ⟨hT, hi, hread _ hw⟩)
  · exact .inr (.inr ⟨hT, hi, hread _ hw⟩)

/-- Settles O40: T0 writes AR, T1 neither, and an execute state as `exec_AR_ne` and `exec_DR_ne` say. -/
theorem sequencerRegisterWriters : Obligations.SequencerRegisterWriters := by
  intro s t h hh
  refine ⟨fun hne => ?_, fun hne => ?_⟩
  · obtain ⟨u, rfl, ⟨hT, -⟩ | ⟨-, rfl⟩ | ⟨-, -, hx⟩⟩ := step_running_next h hh
    · exact .inl hT
    · exact absurd rfl hne
    · exact .inr (exec_AR_ne hx hne)
  · obtain ⟨u, hx, htu⟩ := exec_of_step_ne h hne (fun _ _ => rfl) (addressState_frame s rfl rfl) rfl
    exact exec_DR_ne hx (htu ▸ hne)

/-- Settles O41: T0 leads to T1 or halts, T1 to T2, and an execute state advances or ends the cycle; Halt is entered
by the exhaustion check of T0 or by HALT, whose only row is its last. -/
theorem timingStateAndHaltTransitions : Obligations.TimingStateAndHaltTransitions := by
  intro s t h hh
  obtain ⟨u, rfl, ⟨hT, rfl⟩ | ⟨hT, rfl⟩ | ⟨-, -, hx⟩⟩ := step_running_next h hh
  · by_cases hp : s.PLEN.toNat ≤ s.PC.toNat
    · rw [addressState_eq, if_pos hp]
      exact ⟨.inr rfl, fun _ => ⟨rfl, .inl ⟨hT, hp⟩⟩, rfl, rfl⟩
    · rw [addressState_eq, if_neg hp]
      exact ⟨.inl (by rw [hT]; rfl), fun hh' => absurd (hh.symm.trans hh') Bool.false_ne_true, rfl, rfl⟩
  · exact ⟨.inl (by rw [hT]; rfl), fun hh' => absurd (hh.symm.trans hh') Bool.false_ne_true, rfl, rfl⟩
  · obtain ⟨-, hasm, hplen, -⟩ := exec_keeps hx
    have hTu : u.T = s.T + 1 ∨ u.T = 0 := exec_T hx
    refine ⟨hTu, fun hh' => ?_, hasm, hplen⟩
    obtain ⟨hT, hi⟩ := exec_halted_ne hx fun heq =>
      absurd ((hh.symm.trans heq.symm).trans hh') Bool.false_ne_true
    rw [hi, exec_halt_T3 hT] at hx
    cases hx
    exact ⟨rfl, .inr ⟨hT, hi⟩⟩

end Sys2Proof.Claims
end

section
/-! Readers of AC and E (10_state.md R16, R17): replacing a register that an instruction's ROM rows do not read changes
that register alone in the outcome. -/

namespace Sys2Proof.Machine

/-- `set` replaces a register that the timing state, the operand forms and memory do not depend on. -/
structure SideRegister {α : Type} (set : State → α → State) : Prop where
  T : ∀ s x, (set s x).T = s.T
  mem : ∀ s x, (set s x).mem = s.mem
  setT : ∀ s x v, (set s x).setT v = set (s.setT v) x
  setAR : ∀ s x v, (set s x).setAR v = set (s.setAR v) x

theorem sideRegister_setAC : SideRegister State.setAC where
  T _ _ := rfl
  mem _ _ := rfl
  setT _ _ _ := rfl
  setAR _ _ _ := rfl

theorem sideRegister_setE : SideRegister State.setE where
  T _ _ := rfl
  mem _ _ := rfl
  setT _ _ _ := rfl
  setAR _ _ _ := rfl

section
variable {α : Type} {set : State → α → State} (hset : SideRegister set)
include hset

/-- A ROM entry whose micro-operations do not read a register changes only that register's value when it is
replaced (R70). -/
theorem executeEntry_set {e : RomEntry} {s : State} {x : α}
    (hops : ∀ op ∈ e.ops, ∀ acc y, ∃ z, op.apply (set s x) (set acc y) = set (op.apply s acc) z) :
    ∃ z, executeEntry e (set s x) = set (executeEntry e s) z := by
  have key : ∀ (ops : List MicroOp) (acc : State) (y : α), (∀ op ∈ ops, op ∈ e.ops) →
      ∃ z, ops.foldl (fun acc op => op.apply (set s x) acc) (set acc y) =
        set (ops.foldl (fun acc op => op.apply s acc) acc) z := by
    intro ops
    induction ops with
    | nil => exact fun acc y _ => ⟨y, rfl⟩
    | cons op ops ih =>
      intro acc y hmem
      obtain ⟨z, hz⟩ := hops op (hmem op List.mem_cons_self) acc y
      rw [List.foldl_cons, hz]
      exact ih _ z fun o ho => hmem o (List.mem_cons_of_mem _ ho)
  obtain ⟨z, hz⟩ := key e.ops s x fun _ => id
  refine ⟨z, ?_⟩
  unfold executeEntry applyOps
  rw [hz, hset.T]
  split <;> exact hset.setT _ _ _

end

end Sys2Proof.Machine

namespace Sys2Proof.Claims

open Sys2Proof.Machine

section
variable {α : Type} {set : State → α → State} (hset : SideRegister set)
  {β : Type} {view : State → β} (hview : ∀ s x, view (set s x) = view s)
include hset hview

/-- The operand forms do not read such a register (R69). -/
theorem seen_memoryOperand_set (ind : Bool) (a : Address) (s : State) (x : α) :
    seen view (memoryOperand ind a (set s x)) = seen view (memoryOperand ind a s) := by
  have hnext (v : Address) : view ((set s x).setAR v).advance = view (s.setAR v).advance := by
    rw [State.advance, hset.setAR, hset.T, hset.setT, hview]
    rfl
  cases ind with
  | false => exact congrArg Host.Outcome.next (hnext a)
  | true =>
    simp only [memoryOperand, if_true, indirectOperand, hset.mem]
    split
    · rfl
    · exact congrArg Host.Outcome.next (hnext _)

/-- An instruction whose ROM rows do not read a register has the same outcome, up to that register, whatever it
holds. -/
theorem seen_exec_set {i : Instr} {s : State} {x : α}
    (hrows : ∀ e ∈ romRows i, ∀ op ∈ e.ops, ∀ acc y, ∃ z, op.apply (set s x) (set acc y) = set (op.apply s acc) z) :
    seen view (exec i (set s x)) = seen view (exec i s) := by
  rw [exec_eq, exec_eq, instructionStep, instructionStep, hset.T]
  split
  · obtain ⟨ind, hi⟩ := operandOf_eq i
    rw [hi]
    exact seen_memoryOperand_set hset hview ind _ s x
  · cases he : romEntry (romRows i) s.T.toNat with
    | none => rfl
    | some e =>
      obtain ⟨z, hz⟩ := executeEntry_set hset (hrows e (romEntry_some he).2.2)
      exact congrArg Host.Outcome.next (by rw [hz, hview])

end

/-- The micro-operations that read AC (R72). -/
def acReaders : List MicroOp :=
  [.acAnd, .acAdd, .mAc, .acCmp, .rotR, .rotL, .acInc, .skipAcPos, .skipAcNeg, .skipAcZ]

/-- The micro-operations that read E (R72). -/
def eReaders : List MicroOp := [.eCmp, .rotR, .rotL, .skipEZ]

theorem apply_setAC {op : MicroOp} (h : op ∉ acReaders) (s acc : State) (x y : Word) :
    ∃ z, op.apply (s.setAC x) (acc.setAC y) = (op.apply s acc).setAC z := by
  cases op with
  | acAnd | acAdd | mAc | acCmp | rotR | rotL | acInc | skipAcPos | skipAcNeg | skipAcZ => simp [acReaders] at h
  | _ => exact ⟨_, rfl⟩

theorem apply_setE {op : MicroOp} (h : op ∉ eReaders) (s acc : State) (x y : Flag) :
    ∃ z, op.apply (s.setE x) (acc.setE y) = (op.apply s acc).setE z := by
  cases op with
  | eCmp | rotR | rotL | skipEZ => simp [eReaders] at h
  | _ => exact ⟨_, rfl⟩

/-- The rows of the other instructions hold no micro-operation that reads AC (R16, R71). -/
theorem romRows_not_acReaders {i : Instr} (h : readsAC i = false) : ∀ e ∈ romRows i, ∀ op ∈ e.ops, op ∉ acReaders := by
  cases i with
  | and | add | store | cma | cir | cil | inc | spa | sna | sza => cases h
  | _ => simp [romRows, acReaders]

/-- The rows of the other instructions hold no micro-operation that reads E (R17, R71). -/
theorem romRows_not_eReaders {i : Instr} (h : readsE i = false) : ∀ e ∈ romRows i, ∀ op ∈ e.ops, op ∉ eReaders := by
  cases i with
  | cme | cir | cil | sze => cases h
  | _ => simp [romRows, eReaders]

/-- Settles O37: the writers by the ROM table, the readers by the micro-operations of the rows. -/
theorem accumulatorReadersAndWriters : Obligations.AccumulatorReadersAndWriters := by
  refine ⟨fun s t h hne => ?_, fun i hi s x => ?_, fun ind a s x hT => ?_, fun s x hT => ?_, rfl, fun _ => rfl⟩
  · obtain ⟨u, hx, htu⟩ := exec_of_step_ne h hne (fun _ _ => rfl) (addressState_frame s rfl rfl) rfl
    exact exec_AC_ne hx (htu ▸ hne)
  · exact seen_exec_set sideRegister_setAC (fun _ _ => rfl)
      fun e he op hop acc y => apply_setAC (romRows_not_acReaders hi e he op hop) s acc x y
  · rw [exec_load_T4 ind a hT, exec_load_T4 ind a (s := { s with AC := x }) hT]
  · rw [exec_cla_T3 hT, exec_cla_T3 (s := { s with AC := x }) hT]

/-- Settles O38: the writers by the ROM table, the readers by the micro-operations of the rows. -/
theorem flagReadersAndWriters : Obligations.FlagReadersAndWriters := by
  refine ⟨fun s t h hne => ?_, fun i hi s x => ?_, fun ind a s x hT => ?_, rfl, fun _ => rfl⟩
  · obtain ⟨u, hx, htu⟩ := exec_of_step_ne h hne (fun _ _ => rfl) (addressState_frame s rfl rfl) rfl
    exact exec_E_ne hx (htu ▸ hne)
  · exact seen_exec_set sideRegister_setE (fun _ _ => rfl)
      fun e he op hop acc y => apply_setE (romRows_not_eReaders hi e he op hop) s acc x y
  · rw [exec_add_T4 ind a hT, exec_add_T4 ind a (s := { s with E := x }) hT]

end Sys2Proof.Claims
end

section
/-! The invariants of the block (10_state.md R30): session start is legal, every step and every operation of the host
keeps that, and so does the record of whole instruction cycles in the trace. -/

namespace Sys2Proof.Machine

/-! ### Steps keep the legal state -/

/-- No timing state but T1 is labelled T1 (R28). -/
theorem stepLabel_ne_T1 : ∀ t : TimingState, t ≠ 1 → stepLabel t ≠ "T1" := by decide

/-- A timing state in the ROM is at most T5 (R30.1). -/
theorem State.InRom.timing {s : State} (h : s.InRom) : s.T.toNat ≤ 5 := by
  have hlen := romRows_length_le (decode s.IR)
  by_contra hT
  have := h (by omega)
  unfold terminalState at this
  omega

/-- The fetch in the trace stays the last one when an entry of another timing state is appended and IR is kept. -/
theorem State.fetchRecorded.append {s t : State} {e : TraceEntry} (h : s.fetchRecorded) (hIR : t.IR = s.IR)
    (htrace : t.trace = s.trace ++ [e]) (he : e.label ≠ "T1") : t.fetchRecorded := by
  obtain ⟨before, f, after, hs, hf, hfIR, hafter⟩ := h
  refine ⟨before, f, after ++ [e], by simp [htrace, hs], hf, hfIR.trans hIR.symm, fun x hx => ?_⟩
  rcases List.mem_append.mp hx with hx | hx
  · exact hafter x hx
  · rw [List.mem_singleton.mp hx]
    exact he

/-- An entry labelled T1 that shows the word in IR records the fetch. -/
theorem State.fetchRecorded_of_last {s : State} {before : List TraceEntry} {e : TraceEntry}
    (htrace : s.trace = before ++ [e]) (he : e.label = "T1") (hIR : e.snap.IR = s.IR) : s.fetchRecorded :=
  ⟨before, e, [], htrace, he, hIR, by simp⟩

/-- Every micro-step keeps memory canonical. -/
theorem step_mem_wf {s t : State} (hwf : s.mem.wf = true) (h : step s = .next t) : t.mem.wf = true := by
  obtain ⟨-, ⟨-, rfl⟩ | ⟨-, u, hu, rfl⟩⟩ := step_next h
  · exact hwf
  show u.mem.wf = true
  obtain ⟨-, rfl⟩ | ⟨-, rfl⟩ | ⟨-, -, hx⟩ := timingState_next hu
  · rw [addressState_eq]
    split <;> exact hwf
  · exact hwf
  · rcases exec_next hx with ⟨-, ht⟩ | ⟨e, -, rfl⟩
    · rw [ht]
      exact hwf
    · exact executeEntry_mem_wf e hwf

end Sys2Proof.Machine

namespace Sys2Proof.Claims

open Sys2Proof.Machine

/-- The trace of a step's next state records the fetch of the word in IR from T2 on (R30.5). -/
theorem step_fetchRecorded {s t : State} (hs : 2 ≤ s.T.toNat → s.fetchRecorded) (hh : s.halted = false)
    (h : step s = .next t) (hT : 2 ≤ t.T.toNat) : t.fetchRecorded := by
  obtain ⟨u, rfl, ⟨-, rfl⟩ | ⟨hT1, rfl⟩ | ⟨h0, h1, hx⟩⟩ := step_running_next h hh
  · have hle : (addressState s).T.toNat ≤ 1 := by
      rw [addressState_eq]
      split <;> simp
    exact absurd hT (Nat.not_le.mpr (Nat.lt_succ_of_le hle))
  · exact State.fetchRecorded_of_last rfl (by rw [hT1]; rfl) rfl
  · have h2 : 2 ≤ s.T.toNat := by bv_omega
    exact (hs h2).append (exec_keeps hx).1 rfl (stepLabel_ne_T1 s.T h1)

/-- Settles O56, invariant by invariant: the timing state by the ROM's coverage, Halt and PLEN by
`timingStateAndHaltTransitions`, the trace and memory by the two lemmas above. -/
theorem stepKeepsLegalState : Obligations.StepKeepsLegalState := by
  intro s t hs h
  have hrom := step_keeps_inRom s t hs.inRom h
  have hasm := step_assembled h
  cases hh : s.halted with
  | true =>
    rw [step_halted (step_next h).1 hh] at h
    cases h
    exact hs
  | false =>
    obtain ⟨-, hhalt, -, hplen⟩ := timingStateAndHaltTransitions s t h hh
    exact
      { timing := hrom.timing
        halted_T := fun hh' => (hhalt hh').1
        halted_assembled := fun _ => hasm
        length := hplen ▸ hs.length
        unassembled := fun hno => by cases hno.symm.trans hasm
        unassembled_T := fun hno => by cases hno.symm.trans hasm
        fetched := step_fetchRecorded hs.fetched hh h
        execute := hrom
        memory := step_mem_wf hs.memory h }

end Sys2Proof.Claims

namespace Sys2Proof.Machine

/-! ### Host operations keep the legal state -/

/-- The block just after `reset()` or `assemble`: it is legal when its program length, its memory and, before the first
assemble, its emptiness are. -/
theorem State.legal_of_fresh {s : State} (hT : s.T = 0) (hh : s.halted = false) (hl : s.PLEN.toNat ≤ 4096)
    (hno : s.assembled = false → s.PLEN = 0 ∧ s.trace = []) (hm : s.mem.wf = true) : s.Legal where
  timing := by simp [hT]
  halted_T _ := hT
  halted_assembled h := by cases hh.symm.trans h
  length := hl
  unassembled := hno
  unassembled_T _ := hT
  fetched h := by simp [hT] at h
  execute h := by simp [hT] at h
  memory := hm

theorem State.legal_reset : State.reset.Legal :=
  State.legal_of_fresh rfl rfl (by decide) (fun _ => ⟨rfl, rfl⟩) rfl

theorem State.Legal.hostReset {s : State} (h : s.Legal) : (hostReset s).Legal :=
  State.legal_of_fresh rfl rfl h.length (fun hno => ⟨(h.unassembled hno).1, rfl⟩) h.memory

theorem State.Legal.loadProgram {s : State} {ws : List Word} (hl : ws.length ≤ Config.memWords) :
    (loadProgram ws s).Legal :=
  State.legal_of_fresh rfl rfl
    (by
      rw [show (Machine.loadProgram ws s).PLEN.toNat = ws.length % 2 ^ 13 from BitVec.toNat_ofNat ..]
      exact (Nat.mod_le _ _).trans hl)
    (fun hno => by cases hno) (imageFrom_sorted (by simpa using hl))

/-- A write of one cell changes no other invariant than memory's, which it keeps. -/
theorem State.Legal.put {s : State} {a : Nat} (v : Word) (ha : a < Config.memWords) (h : s.Legal) :
    ({ s with mem := s.mem.put a v } : State).Legal where
  timing := h.timing
  halted_T := h.halted_T
  halted_assembled := h.halted_assembled
  length := h.length
  unassembled := h.unassembled
  unassembled_T := h.unassembled_T
  fetched := h.fetched
  execute := h.execute
  memory := Memory.sortedFrom_put v h.memory (Nat.zero_le a) ha

end Sys2Proof.Machine

namespace Sys2Proof.Claims

open Sys2Proof.Machine

/-- Settles O57: an operation is made of micro-steps, the load of a program, the write of a cell, and `reset()`. -/
theorem hostOperationsKeepLegalState : Obligations.HostOperationsKeepLegalState := fun o _ hs =>
  o.after_keeps stepKeepsLegalState (fun _ _ hl _ => State.Legal.loadProgram hl) (fun _ v _ ha h => h.put v ha)
    (fun _ h => h.hostReset) hs

/-- Settles O55: session start is a fresh block. -/
theorem sessionStartIsLegal : Obligations.SessionStartIsLegal := State.legal_reset

/-- Every reachable state is legal (R30). -/
theorem legal_of_reachable {s : State} (h : Reachable s) : s.Legal :=
  h.holds State.legal_reset hostOperationsKeepLegalState

/-- Settles O59: a reachable state's timing state is in the ROM, so that its step is not refused. -/
theorem reachableStepIsNeverRefused : Obligations.ReachableStepIsNeverRefused := by
  intro s hs
  cases h : step s with
  | next t => exact .inl ⟨t, rfl⟩
  | fault f => exact .inr ⟨f, rfl⟩
  | refused r => exact absurd h (step_not_refused (legal_of_reachable hs).inRom r)

/-! ### The instruction cycle in the trace -/

/-- The labels of the first `n` timing states of an instruction cycle. -/
def cycleLabels (n : Nat) : List String := ["T0", "T1", "T2", "T3", "T4", "T5"].take n

theorem cycleLabels_succ : ∀ t : TimingState, t.toNat ≤ 5 →
    cycleLabels (t.toNat + 1) = cycleLabels t.toNat ++ [stepLabel t] := by decide

/-- The trace ends with entries labelled T0 to T(n - 1). -/
def EndsWithCycle (trace : List TraceEntry) (n : Nat) : Prop :=
  ∃ before cycle, trace = before ++ cycle ∧ cycle.map TraceEntry.label = cycleLabels n

theorem endsWithCycle_zero (trace : List TraceEntry) : EndsWithCycle trace 0 := ⟨trace, [], by simp, rfl⟩

/-- The entry of the next timing state makes the cycle at the end of the trace one longer. -/
theorem EndsWithCycle.append {trace : List TraceEntry} {t : TimingState} {e : TraceEntry}
    (h : EndsWithCycle trace t.toNat) (ht : t.toNat ≤ 5) (he : e.label = stepLabel t) :
    EndsWithCycle (trace ++ [e]) (t.toNat + 1) := by
  obtain ⟨before, cycle, rfl, hc⟩ := h
  exact ⟨before, cycle ++ [e], by simp, by simp [hc, he, cycleLabels_succ t ht]⟩

/-- The micro-steps of an instruction are T0 to its terminal state (R74). -/
theorem microSteps_eq (i : Instr) : microSteps i = terminalState i + 1 := by
  cases i <;> rfl

/-- A micro-step that ends the instruction cycle is the terminal one (R70, R71). -/
theorem terminal_of_exec {i : Instr} {s t : State} (h : exec i s = .next t) (hs : s.T.toNat ≤ 5) (ht : t.T = 0) :
    s.T.toNat = terminalState i := by
  have hadd : s.T + 1 ≠ 0 := by bv_omega
  rcases exec_next h with ⟨-, heq⟩ | ⟨e, he, rfl⟩
  · exact absurd ((congrArg State.T heq).symm.trans ht) hadd
  · rw [executeEntry_T] at ht
    cases hlast : e.last with
    | true => simpa [hlast] using romEntry_last he
    | false => exact absurd (by simpa [hlast] using ht) hadd

/-- While the block runs, the trace ends with the timing states of the cycle so far, and in T0, if anything has run,
with the whole cycle of the instruction in IR (R30.6). -/
structure CycleRecorded (s : State) : Prop where
  sofar : s.halted = false → EndsWithCycle s.trace s.T.toNat
  whole : s.halted = false → s.T = 0 → s.trace = [] ∨ EndsWithCycle s.trace (microSteps (decode s.IR))

theorem cycleRecorded_of_fresh {s : State} (hT : s.T = 0) (htrace : s.trace = []) : CycleRecorded s where
  sofar _ := by
    rw [hT]
    exact endsWithCycle_zero _
  whole _ _ := .inl htrace

/-- Every micro-step of a legal state keeps the record of the cycle. -/
theorem step_cycleRecorded {s t : State} (hs : s.Legal) (hc : CycleRecorded s) (h : step s = .next t) :
    CycleRecorded t := by
  cases hh : s.halted with
  | true =>
    rw [step_halted (step_next h).1 hh] at h
    cases h
    exact hc
  | false =>
    obtain ⟨hT, -, -, -⟩ := timingStateAndHaltTransitions s t h hh
    have hnat : (s.T + 1).toNat = s.T.toNat + 1 := timingState_add_one_toNat (by have := hs.timing; omega)
    obtain ⟨u, rfl, hu⟩ := step_running_next h hh
    have hcycle : EndsWithCycle (recorded s u (memoryReference s)).trace (s.T.toNat + 1) :=
      (hc.sofar hh).append hs.timing rfl
    refine ⟨fun _ => ?_, fun hrun hT0 => .inr ?_⟩
    · rcases hT with hT | hT <;> rw [hT]
      · exact hnat ▸ hcycle
      · exact endsWithCycle_zero _
    · rcases hu with ⟨-, rfl⟩ | ⟨-, rfl⟩ | ⟨-, -, hx⟩
      · by_cases hp : s.PLEN.toNat ≤ s.PC.toNat
        · rw [addressState_eq, if_pos hp] at hrun
          cases hrun
        · rw [addressState_eq, if_neg hp] at hT0
          cases hT0
      · cases hT0
      · rw [show (recorded s u (memoryReference s)).IR = s.IR from (exec_keeps hx).1, microSteps_eq,
          ← terminal_of_exec hx hs.timing hT0]
        exact hcycle

/-- Every operation of the host keeps the record of the cycle of a legal state. -/
theorem hostOp_cycleRecorded (o : HostOp) (s : State) (h : s.Legal ∧ CycleRecorded s) :
    (o.after s).Legal ∧ CycleRecorded (o.after s) :=
  o.after_keeps (P := fun s => s.Legal ∧ CycleRecorded s)
    (fun s t ⟨hs, hc⟩ ht => ⟨stepKeepsLegalState s t hs ht, step_cycleRecorded hs hc ht⟩)
    (fun _ _ hl _ => ⟨State.Legal.loadProgram hl, cycleRecorded_of_fresh rfl rfl⟩)
    (fun _ v _ ha ⟨hs, hc⟩ => ⟨hs.put v ha, ⟨hc.sofar, hc.whole⟩⟩)
    (fun _ ⟨hs, _⟩ => ⟨hs.hostReset, cycleRecorded_of_fresh rfl rfl⟩) h

/-- Settles O58: points 1 to 5 are those of the legal state, and point 6 is the record of the cycle. -/
theorem reachableStatesMeetInvariants : Obligations.ReachableStatesMeetInvariants := by
  intro s h
  obtain ⟨hs, hc⟩ : s.Legal ∧ CycleRecorded s :=
    h.holds (P := fun s => s.Legal ∧ CycleRecorded s)
      ⟨State.legal_reset, cycleRecorded_of_fresh rfl rfl⟩ hostOp_cycleRecorded
  exact ⟨hs.timing, hs.halted_T, hs.halted_assembled, hs.length, hs.unassembled, hs.fetched,
    fun hT hrun => hc.whole hrun hT, hs.memory⟩

end Sys2Proof.Claims
end

section
/-! The common states and the trace of a step (40_instruction_cycle.md R65 to R69, R73): T0 and T2 by the registers and
the bits of IR, the errors of T2, and what the host's step answers. -/

namespace Sys2Proof.Machine

/-! ### T2 by the parts of the instruction -/

/-- Whether T2 makes an indirect read: a memory-reference word with its I bit set (R69). -/
def Instr.readsPointer (i : Instr) : Bool := i.opcode != 7 && i.indirectBit

theorem operandOf_eq_parts (i : Instr) : operandOf i = memoryOperand (Instr.readsPointer i) i.field := by
  cases i <;> rfl

theorem operandRef_eq_parts (i : Instr) : operandRef i = if Instr.readsPointer i then some i.field else none := by
  cases i <;> rfl

theorem readsPointer_decode (w : Word) :
    Instr.readsPointer (decode w) = true ↔ opField w ≠ 7 ∧ iBit w = true := by
  obtain ⟨-, hind, hop, -⟩ := decode_parts w
  simp [Instr.readsPointer, hind, hop]

theorem field_decode (w : Word) : (decode w).field = addrField w := (decode_parts w).2.2.2

/-- In T2 the step references the pointer cell that the operand form reads (R73). -/
theorem memoryReference_of_T_eq_two {s : State} (hT : s.T = 2) : memoryReference s = operandRef (decode s.IR) := by
  simp [memoryReference, hT]

/-- In T0 nothing is referenced (R73). -/
theorem memoryReference_of_T_eq_zero {s : State} (hT : s.T = 0) : memoryReference s = none := by
  simp [memoryReference, hT]

/-- In T0 the timing state is the address state, of every word (R67). -/
theorem timingState_of_T_eq_zero {s : State} (hT : s.T = 0) : timingState s = .next (addressState s) := by
  simp [timingState, hT]

/-- From T2 on the timing state is the decoded instruction's (R64). -/
theorem timingState_of_two_le {s : State} (hT : 2 ≤ s.T.toNat) : timingState s = exec (decode s.IR) s := by
  have h0 : s.T ≠ 0 := fun h => by simp [h] at hT
  have h1 : s.T ≠ 1 := fun h => by simp [h] at hT
  rw [timingState, if_neg h0, if_neg h1]

/-- An error of a running block's timing state is the step's (R65). -/
theorem step_fault_of_timingState {s : State} {n : TimingState} {f : Fault} (hr : s.Running n)
    (h : timingState s = .fault f) : step s = .fault f := by
  obtain ⟨ha, hh, -⟩ := hr
  rw [step_running ha hh, cycleStep, h]

/-- The host's step of a running block whose micro-step raises an error answers it and keeps the state (R104). -/
theorem hostStep_of_fault {s : State} {n : TimingState} {f : Fault} (hr : s.Running n) (h : step s = .fault f) :
    hostStep s = ⟨s, .err f⟩ := by
  obtain ⟨ha, hh, -⟩ := hr
  simp [hostStep, ha, hh, h]

/-- The host's step of a running block answers the state after the micro-step (R104). -/
theorem hostStep_of_next {s t : State} {n : TimingState} (hr : s.Running n) (h : step s = .next t) :
    hostStep s = ⟨t, .ok ⟨t.T, t.halted, false⟩⟩ := by
  obtain ⟨ha, hh, -⟩ := hr
  simp [hostStep, ha, hh, h]

theorem hostStep_unassembled {s : State} (ha : s.assembled = false) : hostStep s = ⟨s, .err .notAssembled⟩ := by
  simp [hostStep, ha]

theorem hostStep_halted {s : State} (ha : s.assembled = true) (hh : s.halted = true) :
    hostStep s = ⟨s, .ok ⟨s.T, true, true⟩⟩ := by
  simp [hostStep, ha, hh]

theorem runInstruction_unassembled {s : State} (ha : s.assembled = false) :
    runInstruction s = ⟨s, .err .notAssembled⟩ := by
  simp [runInstruction, ha]

theorem runInstruction_halted {s : State} (ha : s.assembled = true) (hh : s.halted = true) :
    runInstruction s = ⟨s, .ok 0⟩ := by
  simp [runInstruction, ha, hh]

/-- A property that a micro-step keeps is kept by `runInstruction`. -/
theorem runInstruction_keeps {P : State → Prop} (hstep : ∀ s t, P s → step s = .next t → P t) {s : State}
    (h : P s) : P (runInstruction s).state := by
  unfold runInstruction
  split
  · exact h
  split
  · exact h
  · exact runInstructionFrom_keeps hstep 6 0 h

theorem runInstruction_running {s : State} (ha : s.assembled = true) (hh : s.halted = false) :
    runInstruction s = runInstructionFrom 6 0 s := by
  simp [runInstruction, ha, hh]

end Sys2Proof.Machine

namespace Sys2Proof.Claims

open Sys2Proof.Machine

/-! ### T0 and T2 of a running block -/

theorem step_T0_halt {s : State} (hr : s.Running 0) (hp : s.PLEN.toNat ≤ s.PC.toNat) :
    step s = .next (recorded s { s with halted := true, T := 0 } none) := by
  have ⟨_, _, hT⟩ := hr
  rw [step_eq_recorded hr (timingState_of_T_eq_zero hT), memoryReference_of_T_eq_zero hT, addressState_eq, if_pos hp]

theorem step_T0_load {s : State} (hf : s.AtFetch) :
    step s = .next (recorded s { s with AR := s.PC, T := 1 } none) := by
  rw [step_eq_recorded hf.1 (timingState_of_atFetch hf), memoryReference_of_T_eq_zero hf.1.2.2]

/-- T2 of an indirect operand whose word is an Address (R69). -/
theorem step_T2_indirect {s : State} (hr : s.Running 2) (hi : opField s.IR ≠ 7 ∧ iBit s.IR = true)
    (hv : (s.mem.read (addrField s.IR)).toNat ≤ 4095) :
    step s = .next (recorded s { s with AR := (s.mem.read (addrField s.IR)).setWidth 12, T := 3 }
      (some (addrField s.IR))) := by
  have ⟨_, _, hT⟩ := hr
  have hp := (readsPointer_decode s.IR).mpr hi
  have hea : effectiveAddress true (addrField s.IR) s.mem = some ((s.mem.read (addrField s.IR)).setWidth 12) :=
    if_pos hv
  have hx : timingState s = .next { s with AR := (s.mem.read (addrField s.IR)).setWidth 12, T := s.T + 1 } := by
    rw [timingState_of_T_eq_two hT, operandOf_eq_parts, hp, field_decode, memoryOperand_of_effectiveAddress hea]
  rw [step_eq_recorded hr hx, memoryReference_of_T_eq_two hT, operandRef_eq_parts, hp, field_decode, hT]
  rfl

/-- T2 of an indirect operand whose word is no Address (R69, R109). -/
theorem step_T2_outOfRange {s : State} (hr : s.Running 2) (hi : opField s.IR ≠ 7 ∧ iBit s.IR = true)
    (hv : 4095 < (s.mem.read (addrField s.IR)).toNat) :
    step s = .fault (.outOfRange (s.mem.read (addrField s.IR)).toNat) := by
  refine step_fault_of_timingState hr ?_
  rw [timingState_of_T_eq_two hr.2.2, operandOf_eq_parts, (readsPointer_decode s.IR).mpr hi, field_decode,
    memoryOperand, if_pos rfl, indirectOperand_bad hv]

/-- T2 of every other word (R69). -/
theorem step_T2_direct {s : State} (hr : s.Running 2) (hi : ¬ (opField s.IR ≠ 7 ∧ iBit s.IR = true)) :
    step s = .next (recorded s { s with AR := addrField s.IR, T := 3 } none) := by
  have ⟨_, _, hT⟩ := hr
  have hp := Bool.eq_false_iff.mpr (mt (readsPointer_decode s.IR).mp hi)
  have hx : timingState s = .next { s with AR := addrField s.IR, T := s.T + 1 } := by
    rw [timingState_of_T_eq_two hT, operandOf_eq_parts, hp, field_decode]
    rfl
  rw [step_eq_recorded hr hx, memoryReference_of_T_eq_two hT, operandRef_eq_parts, hp, hT]
  rfl

/-- Settles O8: T0 is `addressState`, by its one condition. -/
theorem addressStateLoadsArOrHalts : Obligations.AddressStateLoadsArOrHalts :=
  fun _ hr => ⟨step_T0_halt hr, fun hp => step_T0_load ⟨hr, hp⟩⟩

/-- Settles O10: T2 reads the pointer cell exactly for a memory-reference word with bit 15 set. -/
theorem decodeStateResolvesAddress : Obligations.DecodeStateResolvesAddress := fun _ hr =>
  ⟨fun hi => ⟨step_T2_indirect hr hi, fun hv => hostStep_of_fault hr (step_T2_outOfRange hr hi hv)⟩,
    step_T2_direct hr⟩

/-- Settles O19: an opcode of 7 makes no indirect read, and the field is bits 11:0 of the word. -/
theorem otherInstructionsLoadFieldAtT2 : Obligations.OtherInstructionsLoadFieldAtT2 := by
  intro i hop s hT
  obtain ⟨-, hopcode, hfield⟩ := Laws.EncodedFields.of_pack i
  have hp : Instr.readsPointer i = false := by simp [Instr.readsPointer, ← hopcode, hop]
  rw [exec_eq, instructionStep_at_T2 hT, operandOf_eq_parts, hp, hfield, memoryOperand, if_neg Bool.false_ne_true,
    fieldOperand_eq, hT]
  rfl

/-! ### The fetch -/

/-- T0 and T1 from a fetch: the word at PC is in IR, PC has advanced, and AR holds the old PC (R67, R68). -/
theorem steps_to_T2 {s : State} (hf : s.AtFetch) :
    ∃ u v, step s = .next u ∧ step u = .next v ∧ u.Running 1 ∧ v.Running 2 ∧
      v = { s with IR := s.mem.read s.PC, PC := s.PC + 1, AR := s.PC, T := 2, trace := v.trace } ∧
      v.trace.map TraceEntry.label = s.trace.map TraceEntry.label ++ ["T0", "T1"] := by
  have ⟨⟨hasm, hrun, hT⟩, _⟩ := hf
  refine ⟨_, _, step_T0_load hf, step_eq_recorded (n := 1) ⟨hasm, hrun, rfl⟩ (timingState_of_T_eq_one rfl),
    ⟨hasm, hrun, rfl⟩, ⟨hasm, hrun, rfl⟩, rfl, ?_⟩
  simp only [recorded, hT, List.map_append, List.append_assoc]
  rfl

/-- Two steps that answer next states are `stepsFrom 2`. -/
theorem stepsFrom_two {s u v : State} (hu : step s = .next u) (hv : step u = .next v) :
    stepsFrom 2 s = .next v := by
  simp [stepsFrom, hu, hv]

/-- From T2 on a running block steps by the decoded instruction (R64, R65). -/
theorem step_eq_exec {s : State} (ha : s.assembled = true) (hh : s.halted = false) (hT : 2 ≤ s.T.toNat) :
    step s = match exec (decode s.IR) s with
      | .next t => .next (recorded s t (memoryReference s))
      | .fault f => .fault f
      | .refused r => .refused r := by
  rw [step_running ha hh, cycleStep, timingState_of_two_le hT]
  cases hx : exec (decode s.IR) s with
  | next t => exact congrArg Host.Outcome.next (record_eq_recorded _ (exec_keeps hx).2.2.2)
  | fault f => rfl
  | refused r => rfl

/-- Settles O11: the timing states from T2 on are `exec` of the word in IR, which the fetch took from the old PC. -/
theorem stepRunsDecodedInstruction : Obligations.StepRunsDecodedInstruction := by
  refine ⟨fun s => step_eq_exec, fun s hf => ?_⟩
  obtain ⟨u, v, hu, hv, -, hrun, heq, -⟩ := steps_to_T2 hf
  have hIR : v.IR = s.mem.read s.PC := congrArg State.IR heq
  have hT : 2 ≤ v.T.toNat := by simp [hrun.2.2]
  exact ⟨v, stepsFrom_two hu hv, hrun, hIR ▸ step_eq_exec hrun.1 hrun.2.1 hT⟩

/-- Settles O12: the state that `steps_to_T2` reaches, with the Address PC + 1 as PC plus one modulo 4096. -/
theorem fetchAdvancesPcByOne : Obligations.FetchAdvancesPcByOne := by
  intro s hf
  obtain ⟨u, v, hu, hv, -, -, heq, hlabels⟩ := steps_to_T2 hf
  exact ⟨v, stepsFrom_two hu hv, address_add_one s.PC ▸ heq, hlabels⟩

/-! ### The trace entry of a step -/

/-- T2 references the pointer cell of an indirect memory-reference word (R73). -/
theorem operandRef_decode (w : Word) :
    operandRef (decode w) = if opField w ≠ 7 ∧ iBit w = true then some (addrField w) else none := by
  rw [operandRef_eq_parts, field_decode]
  exact if_congr (readsPointer_decode w) rfl rfl

/-- The memory that a step references is what the table of R73 says; from T3 on, instruction by instruction. -/
theorem memoryReference_eq_referenced (s : State) : memoryReference s = referenced s := by
  have hcases : s.T = 0 ∨ s.T = 1 ∨ s.T = 2 ∨ s.T = 3 ∨ s.T = 4 ∨ s.T = 5 ∨ s.T = 6 ∨ s.T = 7 := by bv_omega
  unfold memoryReference referenced
  rcases hcases with hT | hT | hT | hexecute
  · simp [hT]
  · simp [hT]
  · simp [hT, operandRef_decode]
  · rcases hexecute with hT | hT | hT | hT | hT <;>
      cases decode s.IR <;> simp [hT, executeRef, romEntry, romRows, MicroOp.touchesMemory]

/-- Settles O13: the step is recorded, and its reference is the table's. -/
theorem eachStepAppendsOneTraceEntry : Obligations.EachStepAppendsOneTraceEntry := by
  intro s t h hh
  obtain ⟨u, rfl, -⟩ := step_running_next h hh
  rw [memoryReference_eq_referenced]
  rfl

/-! ### Errors and answers -/

/-- An assembled block that a step's error leaves is running. -/
theorem running_of_step_fault {s : State} {f : Fault} (ha : s.assembled = true) (h : step s = .fault f) :
    s.Running s.T :=
  ⟨ha, (step_fault ha h).1, rfl⟩

/-- Settles O16: an error is the decoded instruction's, which raises only in T2 of its indirect operand form. -/
theorem onlyIndirectOperandRaises : Obligations.OnlyIndirectOperandRaises := by
  intro s f ha h
  obtain ⟨-, hx⟩ := step_fault ha h
  obtain ⟨hT, hop, hv, hf⟩ := exec_fault hx
  rw [exec_eq, instructionStep_at_T2 hT, operandOf_eq_parts] at hx
  obtain ⟨hne, hi⟩ := (readsPointer_decode s.IR).mp (memoryOperand_fault hx).1
  rw [field_decode] at hv hf
  exact ⟨hT, hne, hi, hv, hf⟩

/-- Settles O14: the three cases of `hostStep`, the last one by the outcome of the micro-step. -/
theorem hostStepAnswers : Obligations.HostStepAnswers := fun _ =>
  ⟨hostStep_unassembled, fun ha hh => ⟨hostStep_halted ha hh, step_halted ha hh⟩, fun ha hh =>
    ⟨fun _ h => hostStep_of_next ⟨ha, hh, rfl⟩ ((step_running ha hh).trans h),
      fun _ h => hostStep_of_fault ⟨ha, hh, rfl⟩ ((step_running ha hh).trans h)⟩⟩

/-- An assembled block's step does not raise NotAssembled. -/
theorem step_ne_notAssembled {s : State} (ha : s.assembled = true) : step s ≠ .fault .notAssembled := fun h => by
  obtain ⟨-, -, -, -, hf⟩ := onlyIndirectOperandRaises s _ ha h
  cases hf

/-- Settles O15: an error of a control operation is the next step's or the bound's, and the operation keeps the block
assembled; the other two operations raise errors of their own. -/
theorem notAssembledOnlyByControlOperations : Obligations.NotAssembledOnlyByControlOperations := by
  have hkeep : ∀ s t : State, s.assembled = true → step s = .next t → t.assembled = true :=
    fun _ _ _ => step_assembled
  refine ⟨fun s ha => ⟨hostStep_unassembled ha, runInstruction_unassembled ha, fun N => runToHalt_unassembled ha⟩,
    fun s ha => ⟨fun h => step_ne_notAssembled ha (hostStep_err h), fun h => ?_, fun N h => ?_⟩,
    fun s a w h => ?_, fun s lines h => ?_⟩
  · exact step_ne_notAssembled (runInstruction_keeps hkeep ha) (runInstruction_err h)
  · rcases runToHalt_err h with ⟨hf, -⟩ | hstep
    · cases hf
    · exact step_ne_notAssembled (runToHalt_keeps hkeep N ha) hstep
  · cases writeMemory_err h
  · obtain ⟨⟨k, hk⟩, -⟩ := assemble_err h
    cases hk

/-- T2 loads the Address that the pointer cell holds into AR (R69). -/
theorem step_T2_pointer {s : State} {v : Nat} (hr : s.Running 2) (hi : opField s.IR ≠ 7 ∧ iBit s.IR = true)
    (hread : s.mem.read (addrField s.IR) = BitVec.ofNat 16 v) (hv : v ≤ 4095) :
    ∃ t, step s = .next t ∧ t.AR = BitVec.ofNat 12 v ∧ t.T = 3 := by
  have hnat : (s.mem.read (addrField s.IR)).toNat = v := by
    rw [hread, BitVec.toNat_ofNat]
    exact Nat.mod_eq_of_lt (by omega)
  refine ⟨_, step_T2_indirect hr hi (hnat.le.trans hv), ?_, rfl⟩
  show BitVec.setWidth 12 (s.mem.read (addrField s.IR)) = _
  rw [← BitVec.ofNat_toNat, hnat]

/-- After a host write of an Address to the pointer cell, T2 loads it into AR (R102, R130). -/
theorem step_T2_after_write {s : State} {v : Nat} (hwf : s.mem.wf = true) (hr : s.Running 2)
    (hi : opField s.IR ≠ 7 ∧ iBit s.IR = true) (hv : v ≤ 4095) :
    ∃ t, step (writeMemory (addrField s.IR).toNat v s).state = .next t ∧ t.AR = BitVec.ofNat 12 v ∧ t.T = 3 := by
  rw [writeMemory_ok v s (addrField s.IR).isLt]
  exact step_T2_pointer (s := { s with mem := s.mem.write (addrField s.IR) (BitVec.ofNat 16 v) }) hr hi
    (Memory.read_write_same _ _ hwf) hv

/-- Settles O17: the error is T2's, the answer keeps the state, and the next step reads the pointer cell again. -/
theorem outOfRangeIsResumable : Obligations.OutOfRangeIsResumable := by
  refine ⟨fun s a ha h => ?_, fun s a w h => writeMemory_bad w s h⟩
  have hstep := hostStep_err h
  have hr := running_of_step_fault ha hstep
  obtain ⟨hT, hop, hi, hv, hf⟩ := onlyIndirectOperandRaises s _ ha hstep
  have hstate : (hostStep s).state = s := by rw [hostStep_of_fault hr hstep]
  obtain rfl := Fault.outOfRange.inj hf
  rw [hstate]
  exact ⟨rfl, hT, hop, hi, rfl, hv, rfl, fun v hv' hwf => step_T2_after_write hwf (hT ▸ hr) ⟨hop, hi⟩ hv'⟩

end Sys2Proof.Claims
end

section
/-! The loops of `runInstruction` and `runToHalt` (44_host_operations.md R105, R106): what an Ok answer says of the
micro-steps done, and that a legal state is never refused. -/

namespace Sys2Proof.Machine

/-- After a step, the micro-steps of `stepsFrom` are those of its next state. -/
theorem stepsFrom_succ {k : Nat} {s t : State} (h : step s = .next t) : stepsFrom (k + 1) s = stepsFrom k t := by
  rw [stepsFrom, h]

/-- What the loop of `runInstruction` has done when it answers Ok: it has stopped at the first boundary or halted
state after one micro-step or more (R105). -/
theorem runInstructionFrom_ok {fuel k r : Nat} {s : State} (h : (runInstructionFrom fuel k s).answer = .ok r) :
    ∃ n, r = k + n ∧ 1 ≤ n ∧ n ≤ fuel ∧ stepsFrom n s = .next (runInstructionFrom fuel k s).state ∧
      ((runInstructionFrom fuel k s).state.halted = true ∨ (runInstructionFrom fuel k s).state.T = 0) ∧
      ∀ (j : Nat) (u : State), 1 ≤ j → j < n → stepsFrom j s = .next u → u.halted = false ∧ u.T ≠ 0 := by
  induction fuel generalizing k s with
  | zero => cases h
  | succ fuel ih =>
    cases he : step s with
    | next t =>
      rw [runInstructionFrom_next he] at h ⊢
      split at h <;> rename_i hend
      · rw [if_pos hend]
        cases h
        exact ⟨1, rfl, le_rfl, by omega, stepsFrom_succ he, hend, fun j u h1 h2 => absurd h2 (by omega)⟩
      · rw [if_neg hend]
        obtain ⟨n, rfl, h1, hn, hsteps, hstop, hmid⟩ := ih h
        refine ⟨n + 1, by omega, by omega, by omega, (stepsFrom_succ he).trans hsteps, hstop, fun j u hj hlt hu => ?_⟩
        obtain ⟨j, rfl⟩ := Nat.exists_eq_succ_of_ne_zero (show j ≠ 0 by omega)
        rw [stepsFrom_succ he] at hu
        cases j with
        | zero =>
          cases hu
          obtain ⟨hrun, hT⟩ := not_or.mp hend
          exact ⟨by simpa using hrun, hT⟩
        | succ j => exact hmid (j + 1) u (by omega) (by omega) hu
    | fault f =>
      rw [runInstructionFrom_fault he] at h
      cases h
    | refused r => simp [runInstructionFrom, he] at h

/-- The loop of `runInstruction` leaves a state that some micro-steps lead to. -/
theorem runInstructionFrom_stepsFrom (fuel k : Nat) (s : State) :
    ∃ n, stepsFrom n s = .next (runInstructionFrom fuel k s).state := by
  induction fuel generalizing k s with
  | zero => exact ⟨0, rfl⟩
  | succ fuel ih =>
    cases he : step s with
    | next t =>
      rw [runInstructionFrom_next he]
      split
      · exact ⟨1, stepsFrom_succ he⟩
      · obtain ⟨n, hn⟩ := ih (k + 1) t
        exact ⟨n + 1, (stepsFrom_succ he).trans hn⟩
    | fault f =>
      rw [runInstructionFrom_fault he]
      exact ⟨0, rfl⟩
    | refused r => exact ⟨0, by simp [runInstructionFrom, he, stepsFrom]⟩

end Sys2Proof.Machine

namespace Sys2Proof.Claims

open Sys2Proof.Machine

/-- With a turn left for each timing state from T to T5, the loop of `runInstruction` is not refused (R105). -/
theorem runInstructionFrom_not_refused {fuel k : Nat} {s : State} (hs : s.InRom) (hh : s.halted = false)
    (hfuel : 6 ≤ fuel + s.T.toNat) (r : Refusal) : (runInstructionFrom fuel k s).answer ≠ .refused r := by
  induction fuel generalizing k s with
  | zero =>
    have := hs.timing
    omega
  | succ fuel ih =>
    cases he : step s with
    | next t =>
      rw [runInstructionFrom_next he]
      split
      · simp
      · obtain ⟨hrun, hT0⟩ := not_or.mp ‹_›
        obtain ⟨hT, -⟩ := timingStateAndHaltTransitions s t he hh
        have hnat : t.T.toNat = s.T.toNat + 1 := by
          rw [hT.resolve_right hT0]
          exact timingState_add_one_toNat (by have := hs.timing; omega)
        exact ih (step_keeps_inRom s t hs he) (by simpa using hrun) (by omega)
    | fault f => simp [runInstructionFrom_fault he]
    | refused q => exact absurd he (step_not_refused hs q)

/-- Settles O54: the answer is Ok with what `runInstructionFrom_ok` says, or the error of a step in T2, since the six
turns of the loop suffice for every timing state. -/
theorem runInstructionAlwaysEnds : Obligations.RunInstructionAlwaysEnds := by
  refine fun s => ⟨runInstruction_unassembled, runInstruction_halted, fun ha hh hs => ?_⟩
  have hkeep : (runInstruction s).state.assembled = true :=
    runInstruction_keeps (P := fun s => s.assembled = true) (fun _ _ _ => step_assembled) ha
  have hloop := runInstruction_running ha hh
  cases hans : (runInstruction s).answer with
  | ok k =>
    rw [hloop] at hans
    obtain ⟨n, hk, h1, h6, hsteps, hend, hmid⟩ := runInstructionFrom_ok hans
    obtain rfl : k = n := by omega
    exact .inl ⟨k, _, by rw [hloop, ← hans], h1, h6, hend, hsteps, hmid⟩
  | err f =>
    have hf := runInstruction_err hans
    obtain ⟨n, hn⟩ := runInstructionFrom_stepsFrom 6 0 s
    exact .inr ⟨n, _, f, by rw [← hans], hloop ▸ hn, hf, (onlyIndirectOperandRaises _ f hkeep hf).1⟩
  | refused r =>
    rw [hloop] at hans
    exact absurd hans (runInstructionFrom_not_refused hs.inRom hh (by omega) r)

end Sys2Proof.Claims

namespace Sys2Proof.Machine

/-- What the loop of `runToHalt` has done when it answers Ok: it has stopped at the first halted state, within its
bound (R106). -/
theorem runToHaltFrom_ok {left k r : Nat} {s : State} (h : (runToHaltFrom left k s).answer = .ok r) :
    ∃ n, r = k + n ∧ n ≤ left ∧ (runToHaltFrom left k s).state.halted = true ∧
      stepsFrom n s = .next (runToHaltFrom left k s).state ∧
      ∀ (j : Nat) (u : State), j < n → stepsFrom j s = .next u → u.halted = false := by
  induction left generalizing k s <;> cases hh : s.halted
  case zero.true | succ.true =>
    rw [runToHaltFrom_halted hh] at h ⊢
    cases h
    exact ⟨0, rfl, Nat.zero_le _, hh, rfl, fun j u hj => absurd hj (Nat.not_lt_zero j)⟩
  case zero.false =>
    rw [runToHaltFrom_bound hh] at h
    cases h
  case succ.false left ih =>
    cases he : step s with
    | next t =>
      rw [runToHaltFrom_next hh he] at h ⊢
      obtain ⟨n, rfl, hn, hhalt, hsteps, hmid⟩ := ih h
      refine ⟨n + 1, by omega, by omega, hhalt, (stepsFrom_succ he).trans hsteps, fun j u hj hu => ?_⟩
      cases j with
      | zero =>
        cases hu
        exact hh
      | succ j => exact hmid j u (by omega) ((stepsFrom_succ he).symm.trans hu)
    | fault f =>
      rw [runToHaltFrom_fault hh he] at h
      cases h
    | refused r => simp [runToHaltFrom, hh, he] at h

/-- What the loop of `runToHalt` has done when it answers a step's error: fewer micro-steps than its bound (R106). -/
theorem runToHaltFrom_err_steps {left k : Nat} {s : State} {f : Fault}
    (h : (runToHaltFrom left k s).answer = .err f) (hf : f ≠ .stepLimitExceeded) :
    ∃ n < left, stepsFrom n s = .next (runToHaltFrom left k s).state := by
  induction left generalizing k s <;> cases hh : s.halted
  case zero.true | succ.true => simp [runToHaltFrom_halted hh] at h
  case zero.false =>
    rw [runToHaltFrom_bound hh] at h
    cases h
    exact absurd rfl hf
  case succ.false left ih =>
    cases he : step s with
    | next t =>
      rw [runToHaltFrom_next hh he] at h ⊢
      obtain ⟨n, hn, hsteps⟩ := ih h
      exact ⟨n + 1, by omega, (stepsFrom_succ he).trans hsteps⟩
    | fault g =>
      rw [runToHaltFrom_fault hh he]
      exact ⟨0, Nat.zero_lt_succ _, rfl⟩
    | refused r => simp [runToHaltFrom, hh, he] at h

/-- The loop of `runToHalt` hands on no refusal while the timing state is in the ROM (R71, R106). -/
theorem runToHaltFrom_not_refused {left k : Nat} {s : State} (hs : s.InRom) (r : Refusal) :
    (runToHaltFrom left k s).answer ≠ .refused r := by
  induction left generalizing k s <;> cases hh : s.halted
  case zero.true | succ.true => simp [runToHaltFrom_halted hh]
  case zero.false => simp [runToHaltFrom_bound hh]
  case succ.false left ih =>
    cases he : step s with
    | next t =>
      rw [runToHaltFrom_next hh he]
      exact ih (step_keeps_inRom s t hs he)
    | fault f => simp [runToHaltFrom_fault hh he]
    | refused q => exact absurd he (step_not_refused hs q)

end Sys2Proof.Machine

namespace Sys2Proof.Claims

open Sys2Proof.Machine

/-- Settles O52: the Ok answer, the error answer and the refusal of the loop, each by its lemma. -/
theorem runToHaltIsBounded : Obligations.RunToHaltIsBounded := by
  refine fun N s => ⟨runToHalt_unassembled, fun ha => ?_⟩
  rw [runToHalt_assembled ha]
  refine ⟨fun k h => ?_, fun f h hf => ?_, fun hs => runToHaltFrom_not_refused hs.inRom⟩
  · obtain ⟨n, hk, hN, hhalt, hsteps, hmid⟩ := runToHaltFrom_ok h
    obtain rfl : k = n := by omega
    exact ⟨hN, hhalt, hsteps, hmid⟩
  · obtain ⟨n, hn, hsteps⟩ := runToHaltFrom_err_steps h hf
    exact ⟨n, hn, hsteps, (runToHaltFrom_err h).resolve_left fun hbound => hf hbound.1⟩

end Sys2Proof.Claims
end

section
/-! The ALU (40_instruction_cycle.md R72) in the terms of the rules, and whole instructions (R64, R74): the micro-steps
from a fetch are the instruction's ROM rows, whose writes together are its effect. -/

namespace Sys2Proof.Machine

/-! ### The ALU -/

/-- The sum modulo 2^16 (R77). -/
@[simp] theorem sumWord_eq (ac dr : Word) : sumWord ac dr = ac + dr := by
  rw [sumWord, exactSum, BitVec.ofNat_add, BitVec.ofNat_toNat, BitVec.ofNat_toNat, BitVec.setWidth_eq,
    BitVec.setWidth_eq]

/-- The carry out of bit 15 (R77). -/
@[simp] theorem sumCarry_eq (ac dr : Word) : sumCarry ac dr = if 65536 ≤ ac.toNat + dr.toNat then 1 else 0 := by
  have := ac.isLt
  have := dr.isLt
  apply BitVec.eq_of_toNat_eq
  rw [sumCarry, exactSum, BitVec.toNat_ofNat]
  split <;> simp <;> omega

/-- The complement of AC (R87). -/
@[simp] theorem xor_ones_eq_not (ac : Word) : ac ^^^ 0xFFFF#16 = ~~~ac := BitVec.xor_allOnes

/-- The complement of E (R88). -/
@[simp] theorem complementFlag_eq : ∀ e : Flag, complementFlag e = ~~~e := by decide

/-- `E * 0x8000 + AC / 2` puts E on top of the upper 15 bits of AC (R89). -/
@[simp] theorem circulateRightWord_eq (e : Flag) (ac : Word) :
    circulateRightWord e ac = (ac >>> 1) ||| (e.setWidth 16 <<< 15) := by
  have hac := ac.isLt
  have he := e.isLt
  apply BitVec.eq_of_toNat_eq
  rw [circulateRightWord, BitVec.toNat_ofNat, BitVec.toNat_or, BitVec.toNat_ushiftRight, BitVec.toNat_shiftLeft,
    BitVec.toNat_setWidth, Nat.shiftLeft_eq, Nat.shiftRight_eq_div_pow, Nat.or_comm, Nat.mod_eq_of_lt (by omega),
    Nat.mod_eq_of_lt (by omega), Nat.mod_eq_of_lt (by omega), Nat.mul_comm _ (2 ^ 15),
    ← Nat.two_pow_add_eq_or_of_lt (by omega)]
  omega

/-- `AC mod 2` is bit 0 (R89). -/
@[simp] theorem circulateRightFlag_eq (ac : Word) : circulateRightFlag ac = ac.setWidth 1 := by
  apply BitVec.eq_of_toNat_eq
  simp [circulateRightFlag]

/-- `(AC * 2) mod 2^16 + E` puts E below the lower 15 bits of AC (R90). -/
@[simp] theorem circulateLeftWord_eq (e : Flag) (ac : Word) :
    circulateLeftWord e ac = (ac <<< 1) ||| e.setWidth 16 := by
  have hac := ac.isLt
  have he := e.isLt
  have hdiv : ac.toNat * 2 % 2 ^ 16 = 2 ^ 1 * (ac.toNat % 2 ^ 15) := by omega
  apply BitVec.eq_of_toNat_eq
  rw [circulateLeftWord, BitVec.toNat_ofNat, BitVec.toNat_or, BitVec.toNat_shiftLeft, BitVec.toNat_setWidth,
    Nat.shiftLeft_eq, Nat.pow_one, hdiv, Nat.mod_eq_of_lt (a := e.toNat) (by omega),
    ← Nat.two_pow_add_eq_or_of_lt (by omega)]
  omega

/-- `AC / 0x8000` is bit 15 (R90). -/
@[simp] theorem circulateLeftFlag_eq (ac : Word) : circulateLeftFlag ac = (ac >>> 15).setWidth 1 := by
  apply BitVec.eq_of_toNat_eq
  simp [circulateLeftFlag, Nat.shiftRight_eq_div_pow]

/-- AC is negative when bit 15 is set, that is, from 0x8000 on (R93). -/
@[simp] theorem isNegative_eq (ac : Word) : isNegative ac = decide (0x8000 ≤ ac.toNat) := iBit_eq ac

/-- AC is positive below 0x8000, zero included (R92). -/
@[simp] theorem isPositive_eq (ac : Word) : isPositive ac = decide (ac.toNat < 0x8000) := by
  rw [show isPositive ac = !isNegative ac from rfl, isNegative_eq, ← decide_not, decide_eq_decide, Nat.not_le]

@[simp] theorem isZeroWord_eq (v : Word) : isZeroWord v = decide (v = 0) := rfl

@[simp] theorem isZeroFlag_eq (e : Flag) : isZeroFlag e = decide (e = 0) := rfl

/-- A skip adds one to PC exactly where its condition holds (R84). -/
@[simp] theorem skipTarget_decide (p : Prop) [Decidable p] (pc : Address) :
    skipTarget (decide p) pc = if p then pc + 1 else pc := by
  simp [skipTarget]

/-- An incremented word is zero exactly after 0xFFFF (R82). -/
@[simp] theorem add_one_eq_zero_iff (v : Word) : v + 1#16 = 0#16 ↔ v = 0xFFFF#16 := by
  bv_omega

end Sys2Proof.Machine
end

section
/-! Whole instructions (40_instruction_cycle.md R64, R74): the micro-steps from a fetch run the instruction's ROM rows,
whose writes together are its effect. -/

namespace Sys2Proof.Machine

/-- The state after ROM entries executed one after the other. -/
def executeRows (rows : List RomEntry) (s : State) : State := rows.foldl (fun s e => executeEntry e s) s

/-- The trace is no input of a micro-operation. -/
theorem sideRegister_trace : SideRegister (fun s trace => ({ s with trace := trace } : State)) where
  T _ _ := rfl
  mem _ _ := rfl
  setT _ _ _ := rfl
  setAR _ _ _ := rfl

/-- A ROM entry does the same under any trace, and keeps it. -/
theorem executeEntry_trace (e : RomEntry) (s : State) (trace : List TraceEntry) :
    executeEntry e { s with trace := trace } = { executeEntry e s with trace := trace } := by
  obtain ⟨z, hz⟩ := executeEntry_set sideRegister_trace (e := e) (s := s) (x := trace)
    fun op _ acc y => ⟨y, by cases op <;> rfl⟩
  obtain ⟨-, -, -, htrace⟩ := executeEntry_keeps e { s with trace := trace }
  rw [hz] at htrace ⊢
  rw [show z = trace from htrace]

theorem executeRows_trace (rows : List RomEntry) (s : State) (trace : List TraceEntry) :
    executeRows rows { s with trace := trace } = { executeRows rows s with trace := trace } := by
  induction rows generalizing s with
  | nil => rfl
  | cons e rows ih =>
    show executeRows rows (executeEntry e { s with trace := trace }) = _
    rw [executeEntry_trace, ih]
    rfl

end Sys2Proof.Machine

namespace Sys2Proof.Claims

open Sys2Proof.Machine

/-- The rows of an instruction together are its whole effect (R70, R76 to R98), by unfolding where the rows say what the
rule says, and through the ALU's lemmas where the model computes by arithmetic. -/
theorem executeRows_romRows (i : Instr) (s : State) :
    executeRows (romRows i) s = { wholeEffect i s with T := 0 } := by
  cases i with
  | add | cma | cme | cir | cil | spa | sna | sza | sze | isz =>
    simp [executeRows, romRows, executeEntry, applyOps, MicroOp.apply, wholeEffect]
    rfl
  | _ => rfl

/-- Neither the timing state nor the trace is an input of the whole effect. -/
theorem wholeEffect_timing_trace (i : Instr) (s : State) (T : TimingState) (trace trace' : List TraceEntry) :
    ({ wholeEffect i { s with T := T, trace := trace } with T := 0, trace := trace' } : State) =
      { wholeEffect i s with T := 0, trace := trace' } := by
  cases i <;> rfl

/-- The one execute state of an instruction with one ROM row is its whole effect. -/
theorem exec_single_row {i : Instr} {s : State} (hT : s.T = 3) (hrows : (romRows i).length = 1) :
    exec i s = .next { wholeEffect i s with T := 0 } := by
  obtain ⟨e, he⟩ := List.length_eq_one_iff.mp hrows
  rw [exec_row 0 (congrArg BitVec.toNat hT) (by rw [he]; rfl), ← executeRows_romRows, he]
  rfl

/-- AR after T2 by the parts of the instruction (R69, R75). -/
theorem addressAfterT2_eq_parts (i : Instr) (m : Memory) :
    addressAfterT2 i m = effectiveAddress (Instr.readsPointer i) i.field m := by
  cases i with
  | and | add | load | store | bun | bsa | isz => rfl
  | _ => exact congrArg some (Laws.EncodedFields.of_pack _).2.2

/-- A step of a block that is not halted appends the label of its timing state (R28). -/
theorem step_labels {s t : State} (h : step s = .next t) (hh : s.halted = false) :
    t.trace.map TraceEntry.label = s.trace.map TraceEntry.label ++ [stepLabel s.T] := by
  rw [eachStepAppendsOneTraceEntry s t h hh, List.map_append]
  rfl

/-- The first of the rows that are left is the ROM entry of the timing state, and the terminal state is as many timing
states away as there are rows after it (R71). -/
theorem romEntry_of_drop {i : Instr} {n : Nat} {e : RomEntry} {rows : List RomEntry} (h3 : 3 ≤ n)
    (h : (romRows i).drop (n - 3) = e :: rows) :
    romEntry (romRows i) n = some e ∧ n + rows.length = terminalState i := by
  have hlen := congrArg List.length h
  rw [List.length_drop, List.length_cons] at hlen
  refine ⟨?_, by unfold terminalState; omega⟩
  rw [romEntry, if_neg (by omega), ← Nat.add_zero (n - 3), ← List.getElem?_drop, h]
  rfl

/-- A step from an execute state is its ROM entry, recorded with the next label of the cycle (R65, R70). -/
theorem step_romEntry {s t : State} {e : RomEntry} {before : List String} (hr : s.Running s.T)
    (he : romEntry (romRows (decode s.IR)) s.T.toNat = some e) (ht : step s = .next t)
    (hlabels : s.trace.map TraceEntry.label = before ++ cycleLabels s.T.toNat) :
    t = { executeEntry e s with trace := t.trace } ∧
      t.trace.map TraceEntry.label = before ++ cycleLabels (s.T.toNat + 1) := by
  have hle : s.T.toNat ≤ 5 := by
    have := (romEntry_some he).2.1
    have := romRows_length_le (decode s.IR)
    omega
  refine ⟨?_, by rw [step_labels ht hr.2.1, hlabels, List.append_assoc, cycleLabels_succ s.T hle]⟩
  rw [step_eq_recorded hr (timingState_of_romEntry he)] at ht
  cases ht
  rfl

/-- The loop of `runInstruction` from an execute state runs the rows that are left, appends their labels to those of
the cycle so far, and counts them (R70, R105). -/
theorem runInstructionFrom_rows {e : RomEntry} {rows : List RomEntry} {fuel : Nat} (k : Nat) {s : State}
    {before : List String} (hr : s.Running s.T) (h3 : 3 ≤ s.T.toNat)
    (hrows : (romRows (decode s.IR)).drop (s.T.toNat - 3) = e :: rows) (hfuel : rows.length < fuel)
    (hlabels : s.trace.map TraceEntry.label = before ++ cycleLabels s.T.toNat) :
    ∃ t, runInstructionFrom fuel k s = ⟨t, .ok (k + (rows.length + 1))⟩ ∧
      t = { executeRows (e :: rows) s with trace := t.trace } ∧
      t.trace.map TraceEntry.label = before ++ cycleLabels (s.T.toNat + (rows.length + 1)) := by
  obtain ⟨he, hterm⟩ := romEntry_of_drop h3 hrows
  obtain ⟨fuel, rfl⟩ := Nat.exists_eq_succ_of_ne_zero (Nat.ne_zero_of_lt hfuel)
  induction rows generalizing e fuel k s with
  | nil =>
    obtain ⟨t, ht, hT⟩ := step_terminal hr hterm
    obtain ⟨heq, hlabel⟩ := step_romEntry hr he ht hlabels
    exact ⟨t, by rw [runInstructionFrom_next ht, if_pos (.inr hT)]; rfl, heq, hlabel⟩
  | cons e' rows ih =>
    have hbefore : s.T.toNat < terminalState (decode s.IR) := by
      rw [← hterm, List.length_cons]
      omega
    obtain ⟨t, ht, hIR, hrt, hT⟩ := step_before_terminal hr h3 hbefore
    obtain ⟨heq, hlabel⟩ := step_romEntry hr he ht hlabels
    have hgoes : ¬ (t.halted = true ∨ t.T = 0) := by
      rintro (hh | h0)
      · simp [hrt.2.1] at hh
      · simp [h0] at hT
    have hrest : (romRows (decode t.IR)).drop (t.T.toNat - 3) = e' :: rows := by
      rw [hIR, hT, Nat.sub_add_comm h3, ← List.drop_drop, hrows]
      rfl
    obtain ⟨he', hterm'⟩ := romEntry_of_drop (by omega) hrest
    have hfuel' : rows.length < fuel := Nat.lt_of_succ_lt_succ hfuel
    obtain ⟨fuel, rfl⟩ := Nat.exists_eq_succ_of_ne_zero (Nat.ne_zero_of_lt hfuel')
    obtain ⟨w, hw, hweq, hwlabel⟩ := ih (k + 1) hrt (by omega) hrest (hT ▸ hlabel) he' hterm' fuel hfuel'
    refine ⟨w, ?_, ?_, ?_⟩
    · rw [runInstructionFrom_next ht, if_neg hgoes, hw, List.length_cons, Nat.add_right_comm]
      rfl
    · rw [heq, executeRows_trace] at hweq
      exact hweq
    · rw [hwlabel, hT, List.length_cons, Nat.add_right_comm]
      rfl

/-- `runInstruction` from a fetch whose operand is in range: T0, T1 and T2 lead to T3, and the rows from there are the
whole effect (R64, R74, R105). -/
theorem runInstruction_wholeEffect {s : State} {ea : Address} (hf : s.AtFetch)
    (hea : addressAfterT2 (decode (s.mem.read s.PC)) s.mem = some ea) :
    ∃ t, runInstruction s = ⟨t, .ok (microSteps (decode (s.mem.read s.PC)))⟩ ∧
      t = { wholeEffect (decode (s.mem.read s.PC)) { s with IR := s.mem.read s.PC, PC := s.PC + 1, AR := ea } with
            T := 0, trace := t.trace } ∧
      t.trace.map TraceEntry.label =
        s.trace.map TraceEntry.label ++ cycleLabels (microSteps (decode (s.mem.read s.PC))) := by
  obtain ⟨u, v, t, hu, hv, ht, ⟨-, hu_run, hu_T⟩, ⟨-, hv_run, hv_T⟩, heq⟩ := steps_to_T3 hf hea
  obtain ⟨⟨hasm, hrun, hT0⟩, -⟩ := hf
  rw [← address_add_one] at heq
  generalize hw : s.mem.read s.PC = w at heq ⊢
  have hIR : t.IR = w := congrArg State.IR heq
  have hT : t.T = 3 := congrArg State.T heq
  have hrt : t.Running t.T := ⟨(congrArg State.assembled heq).trans hasm, (congrArg State.halted heq).trans hrun, rfl⟩
  have hlabels : t.trace.map TraceEntry.label = s.trace.map TraceEntry.label ++ cycleLabels t.T.toNat := by
    rw [step_labels ht hv_run, step_labels hv hu_run, step_labels hu hrun, hT0, hu_T, hv_T, hT]
    simp only [List.append_assoc]
    rfl
  obtain ⟨e, rows, hrows⟩ := List.exists_cons_of_length_pos (romRows_length_pos (decode w))
  have hlen : rows.length + 1 = (romRows (decode w)).length := by rw [hrows, List.length_cons]
  have hsteps : microSteps (decode w) = 3 + (rows.length + 1) := by rw [microSteps_eq, terminalState, ← hlen]; omega
  have hfuel : rows.length < 3 := by
    have := romRows_length_le (decode w)
    omega
  obtain ⟨z, hz, hzeq, hzlabels⟩ := runInstructionFrom_rows (e := e) (rows := rows) (fuel := 3) 3 hrt (by simp [hT])
    (by rw [hIR, hT, ← hrows]; rfl) hfuel hlabels
  refine ⟨z, ?_, ?_, ?_⟩
  · rw [runInstruction_running hasm hrun, runInstructionFrom_next hu, if_neg (by simp [hu_run, hu_T]),
      runInstructionFrom_next hv, if_neg (by simp [hv_run, hv_T]),
      runInstructionFrom_next ht, if_neg (by simp [hrt.2.1, hT]), hsteps]
    exact hz
  · rw [← hrows, executeRows_romRows, heq] at hzeq
    exact hzeq.trans (wholeEffect_timing_trace (decode w) { s with IR := w, PC := s.PC + 1, AR := ea } ..)
  · rw [hzlabels, hT, hsteps]
    rfl

/-- Settles O33: `runInstruction_wholeEffect` of the word at PC. -/
theorem instructionCycleRefinesWholeInstruction : Obligations.InstructionCycleRefinesWholeInstruction :=
  fun _ _ hf hea => runInstruction_wholeEffect hf hea

/-- `runInstruction` where T0 halts the block: one micro-step, and nothing fetched (R67, R74). -/
theorem runInstruction_T0_halt {s : State} (hr : s.Running 0) (hp : s.PLEN.toNat ≤ s.PC.toNat) :
    runInstruction s = ⟨recorded s { s with halted := true, T := 0 } none, .ok 1⟩ := by
  rw [runInstruction_running hr.1 hr.2.1, runInstructionFrom_next (step_T0_halt hr hp), if_pos (.inl rfl)]

/-- Where the effective address does not exist, the word is an indirect memory-reference word whose pointer cell holds
no Address (R75). -/
theorem addressAfterT2_eq_none {w : Word} {m : Memory} (h : addressAfterT2 (decode w) m = none) :
    (opField w ≠ 7 ∧ iBit w = true) ∧ 4095 < (m.read (addrField w)).toNat := by
  rw [addressAfterT2_eq_parts, field_decode] at h
  cases hp : Instr.readsPointer (decode w) with
  | false => simp [hp, effectiveAddress] at h
  | true =>
    rw [hp, effectiveAddress, if_pos rfl] at h
    refine ⟨(readsPointer_decode w).mp hp, ?_⟩
    by_contra hle
    simp [Nat.not_lt.mp hle] at h

/-- `runInstruction` where T2 raises: the state after T0 and T1, and the error (R74, R109). -/
theorem runInstruction_T2_outOfRange {s : State} (hf : s.AtFetch)
    (hea : addressAfterT2 (decode (s.mem.read s.PC)) s.mem = none) :
    ∃ v, stepsFrom 2 s = .next v ∧
      runInstruction s = ⟨v, .err (.outOfRange (s.mem.read (addrField (s.mem.read s.PC))).toNat)⟩ := by
  obtain ⟨u, v, hu, hv, ⟨-, hu_run, hu_T⟩, hrv, heq, -⟩ := steps_to_T2 hf
  obtain ⟨hi, hbad⟩ := addressAfterT2_eq_none hea
  have hIR : v.IR = s.mem.read s.PC := congrArg State.IR heq
  have hmem : v.mem = s.mem := by rw [heq]
  have hfault := step_T2_outOfRange hrv (by rw [hIR]; exact hi) (by rw [hIR, hmem]; exact hbad)
  rw [hIR, hmem] at hfault
  refine ⟨v, stepsFrom_two hu hv, ?_⟩
  rw [runInstruction_running hf.1.1 hf.1.2.1, runInstructionFrom_next hu, if_neg (by simp [hu_run, hu_T]),
    runInstructionFrom_next hv, if_neg (by simp [hrv.2.1, hrv.2.2]), runInstructionFrom_fault hfault]

/-- Settles O34: the count of a whole instruction, of a T0 that halts, and of a T2 that raises. -/
theorem microStepCountsAreFixed : Obligations.MicroStepCountsAreFixed := by
  refine fun s => ⟨fun hf hea => ?_, fun hr hp => ?_, fun hf hea => ?_⟩
  · obtain ⟨ea, hea⟩ := Option.ne_none_iff_exists'.mp hea
    obtain ⟨t, ht, -, -⟩ := runInstruction_wholeEffect hf hea
    rw [ht]
  · rw [runInstruction_T0_halt hr hp]
    exact ⟨rfl, rfl⟩
  · obtain ⟨v, hv, hrun⟩ := runInstruction_T2_outOfRange hf hea
    rw [hrun]
    exact ⟨hv, rfl⟩

end Sys2Proof.Claims
end

section
/-! The assembler (30_encoding.md R55 to R63): what a line's tokens can be when it is accepted, and the first bad line
of a source. -/

namespace Sys2Proof.Machine

/-! ### Mnemonics and markers -/

/-- What a table lookup finds is an entry whose name the token spells, without regard to case (R56). -/
theorem lookupMnemonic_some {α : Type} {t : Token} {table : List (String × α)} {v : α}
    (h : lookupMnemonic t table = some v) : ∃ name, (name, v) ∈ table ∧ t.map foldCase = name.toList := by
  induction table with
  | nil => cases h
  | cons entry rest ih =>
    obtain ⟨name, u⟩ := entry
    unfold lookupMnemonic at h
    split at h
    · cases h
      exact ⟨name, List.mem_cons_self, ‹_›⟩
    · obtain ⟨n, hn, ht⟩ := ih h
      exact ⟨n, List.mem_cons_of_mem _ hn, ht⟩

/-- The mnemonics of the memory-reference table name its constructors (R59). -/
theorem mem_memoryReferences_of_lookup {t : Token} {mk : Bool → Address → Instr}
    (h : lookupMnemonic t mriMnemonics = some mk) : mk ∈ Claims.memoryReferences := by
  obtain ⟨name, hmem, -⟩ := lookupMnemonic_some h
  have hall : ∀ p ∈ mriMnemonics, p.2 ∈ Claims.memoryReferences := by simp [mriMnemonics, Claims.memoryReferences]
  exact hall _ hmem

/-- The register-reference table holds no NOP and no I/O instruction (R59). -/
theorem mem_rriMnemonics {t : Token} {i : Instr} (h : lookupMnemonic t rriMnemonics = some i) :
    i.WellFormed = true ∧ i.field ∈ oneHotFields ∧ i.indirectBit = false ∧ i.opcode = 7 := by
  obtain ⟨name, hmem, -⟩ := lookupMnemonic_some h
  exact (by decide : ∀ p ∈ rriMnemonics, p.2.WellFormed = true ∧ p.2.field ∈ oneHotFields ∧
    p.2.indirectBit = false ∧ p.2.opcode = 7) _ hmem

/-- No token names a memory-reference and a register-reference instruction (R59). -/
theorem rri_eq_none_of_mri {t : Token} {mk : Bool → Address → Instr} (h : lookupMnemonic t mriMnemonics = some mk) :
    lookupMnemonic t rriMnemonics = none := by
  obtain ⟨name, hmem, ht⟩ := lookupMnemonic_some h
  cases hr : lookupMnemonic t rriMnemonics with
  | none => rfl
  | some i =>
    obtain ⟨name', hmem', ht'⟩ := lookupMnemonic_some hr
    have hdisjoint : ∀ n ∈ mriMnemonics.map Prod.fst, n ∉ rriMnemonics.map Prod.fst := by decide
    obtain rfl : name = name' := String.toList_injective (ht.symm.trans ht')
    exact absurd (List.mem_map_of_mem hmem') (hdisjoint name (List.mem_map_of_mem hmem))

/-- Folding the case moves the small letters to the capital ones and keeps every other character (R56). -/
theorem foldCase_toNat (c : Char) :
    (foldCase c).toNat = if 97 ≤ c.toNat ∧ c.toNat ≤ 122 then c.toNat - 32 else c.toNat := by
  have hsmall : ('a' ≤ c ∧ c ≤ 'z') ↔ (97 ≤ c.toNat ∧ c.toNat ≤ 122) := by
    simp only [Char.le_def, UInt32.le_iff_toNat_le]
    rfl
  unfold foldCase
  simp only [hsmall]
  split
  · have hv : (c.toNat - 32).isValidChar := .inl (by omega)
    simp [Char.toNat_ofNat, hv]
  · rfl

/-- A letter folds to I when it is I or i (R57). -/
theorem foldCase_eq_I {c : Char} : foldCase c = 'I' ↔ c = 'I' ∨ c = 'i' := by
  simp only [← Char.toNat_inj, foldCase_toNat]
  show _ = 73 ↔ _ = 73 ∨ _ = 105
  split <;> omega

/-- The marker is I in either case (R57). -/
theorem marker_iff {marker : Token} : marker.map foldCase = ['I'] ↔ marker = ['I'] ∨ marker = ['i'] := by
  rw [List.map_eq_singleton_iff]
  simp only [foldCase_eq_I]
  constructor
  · rintro ⟨c, rfl, rfl | rfl⟩
    · exact .inl rfl
    · exact .inr rfl
  · rintro (rfl | rfl)
    · exact ⟨_, rfl, .inl rfl⟩
    · exact ⟨_, rfl, .inr rfl⟩

/-! ### The lines that are accepted -/

section
variable {m : Token} {mk : Bool → Address → Instr} (h : lookupMnemonic m mriMnemonics = some mk)
include h

theorem parseTokens_direct (operand : Token) : parseTokens [m, operand] = (operandValue operand).map (mk false) := by
  simp [parseTokens, h]

theorem parseTokens_indirect (operand marker : Token) :
    parseTokens [m, operand, marker] =
      if marker = ['I'] ∨ marker = ['i'] then (operandValue operand).map (mk true) else none := by
  simp only [parseTokens, h, marker_iff]

/-- A memory-reference mnemonic takes one operand and one marker at most (R57, R61). -/
theorem parseTokens_mri_length {rest : List Token} (hr : rest.length ≠ 1 ∧ rest.length ≠ 2) :
    parseTokens (m :: rest) = none := by
  match rest, hr with
  | [], _ => simp [parseTokens, h]
  | _ :: _ :: _ :: _, _ => simp [parseTokens, h]

end

theorem parseTokens_register {m : Token} {i : Instr} (hn : lookupMnemonic m mriMnemonics = none)
    (h : lookupMnemonic m rriMnemonics = some i) (rest : List Token) :
    parseTokens (m :: rest) = if rest = [] then some i else none := by
  simp [parseTokens, hn, h]

theorem parseTokens_unknown {m : Token} (hn : lookupMnemonic m mriMnemonics = none)
    (hn' : lookupMnemonic m rriMnemonics = none) (rest : List Token) : parseTokens (m :: rest) = none := by
  simp [parseTokens, hn, hn']

/-- The three shapes of an accepted line (R57). -/
theorem parseTokens_some {ts : List Token} {i : Instr} (h : parseTokens ts = some i) :
    (∃ m mk operand a, ts = [m, operand] ∧ lookupMnemonic m mriMnemonics = some mk ∧
      operandValue operand = some a ∧ i = mk false a) ∨
    (∃ m mk operand marker a, ts = [m, operand, marker] ∧ lookupMnemonic m mriMnemonics = some mk ∧
      (marker = ['I'] ∨ marker = ['i']) ∧ operandValue operand = some a ∧ i = mk true a) ∨
    (∃ m, ts = [m] ∧ lookupMnemonic m rriMnemonics = some i) := by
  cases ts with
  | nil => cases h
  | cons m rest =>
    cases hm : lookupMnemonic m mriMnemonics with
    | some mk =>
      match rest with
      | [operand] =>
        rw [parseTokens_direct hm, Option.map_eq_some_iff] at h
        obtain ⟨a, ha, rfl⟩ := h
        exact .inl ⟨m, mk, operand, a, rfl, hm, ha, rfl⟩
      | [operand, marker] =>
        rw [parseTokens_indirect hm] at h
        split at h
        · obtain ⟨a, ha, rfl⟩ := Option.map_eq_some_iff.mp h
          exact .inr (.inl ⟨m, mk, operand, marker, a, rfl, hm, ‹_›, ha, rfl⟩)
        · cases h
      | [] => rw [parseTokens_mri_length hm (by simp)] at h; cases h
      | _ :: _ :: _ :: _ => rw [parseTokens_mri_length hm (by simp)] at h; cases h
    | none =>
      cases hr : lookupMnemonic m rriMnemonics with
      | none => rw [parseTokens_unknown hm hr] at h; cases h
      | some j =>
        rw [parseTokens_register hm hr] at h
        split at h
        · cases h
          subst ‹rest = []›
          exact .inr (.inr ⟨m, rfl, hr⟩)
        · cases h

/-- The word of an accepted line is the word of its instruction (R60). -/
theorem encodeText_some {line : List Char} {w : Word} (h : encodeText line = some w) :
    ∃ i, parseTokens (tokens line) = some i ∧ encode i = w :=
  Option.map_eq_some_iff.mp h

end Sys2Proof.Machine

namespace Sys2Proof.Claims

open Sys2Proof.Machine

/-- Settles O5: the three shapes of an accepted line, and the decoder on the word of each instruction. -/
theorem assembledLineDecodesToItsInstruction : Obligations.AssembledLineDecodesToItsInstruction := by
  intro line w h
  obtain ⟨i, hi, rfl⟩ := encodeText_some h
  rcases parseTokens_some hi with ⟨m, mk, operand, a, ht, hm, ha, rfl⟩ |
    ⟨m, mk, operand, marker, a, ht, hm, hmark, ha, rfl⟩ | ⟨m, ht, hm⟩
  · exact .inl ⟨m, mk, operand, a, ht, hm, ha,
      decode_encode_memoryReference (mem_memoryReferences_of_lookup hm) false a⟩
  · exact .inr (.inl ⟨m, mk, operand, marker, a, ht, hm, hmark, ha,
      decode_encode_memoryReference (mem_memoryReferences_of_lookup hm) true a⟩)
  · exact .inr (.inr ⟨m, i, ht, hm, decode_encode (mem_rriMnemonics hm).1⟩)

end Sys2Proof.Claims

namespace Sys2Proof.Machine

/-! ### The first bad line -/

/-- Line `k` of a source is bad: it has no word, or no address is left for it (R61, R55). -/
def BadLine (k : Nat) (line : String) : Prop := Config.memWords < k ∨ encodeLine line = none

theorem assembleFrom_bad {k : Nat} {line : String} (h : BadLine k line) (rest : List String) :
    assembleFrom k (line :: rest) = .error k := by
  unfold assembleFrom
  split
  · rfl
  · rw [h.resolve_left ‹_›]

theorem assembleFrom_good {k j : Nat} {line : String} (h : ¬ BadLine k line) (rest : List String) :
    assembleFrom k (line :: rest) = .error j ↔ assembleFrom (k + 1) rest = .error j := by
  obtain ⟨hk, hw⟩ := not_or.mp h
  obtain ⟨w, hw⟩ := Option.ne_none_iff_exists'.mp hw
  rw [assembleFrom, if_neg hk, hw]
  cases assembleFrom (k + 1) rest <;> simp

/-- The assembler reports the first bad line (R61). -/
theorem assembleFrom_error {k j : Nat} {lines : List String} :
    assembleFrom k lines = .error j ↔
      ∃ n, ∃ h : n < lines.length, j = k + n ∧ BadLine (k + n) lines[n] ∧
        ∀ m (hm : m < n), ¬ BadLine (k + m) lines[m] := by
  induction lines generalizing k with
  | nil => simp [assembleFrom]
  | cons line rest ih =>
    by_cases hbad : BadLine k line
    · rw [assembleFrom_bad hbad]
      constructor
      · intro h
        cases h
        exact ⟨0, by simp, rfl, hbad, fun m hm => absurd hm (Nat.not_lt_zero m)⟩
      · rintro ⟨n, hn, rfl, -, hgood⟩
        cases n with
        | zero => rfl
        | succ n => exact absurd hbad (hgood 0 (Nat.zero_lt_succ n))
    · rw [assembleFrom_good hbad, ih]
      constructor
      · rintro ⟨n, hn, rfl, hb, hgood⟩
        refine ⟨n + 1, by simpa using hn, by omega, by simpa [Nat.add_right_comm, Nat.add_assoc] using hb,
          fun m hm => ?_⟩
        cases m with
        | zero => exact hbad
        | succ m => simpa [Nat.add_right_comm, Nat.add_assoc] using hgood m (by omega)
      · rintro ⟨n, hn, rfl, hb, hgood⟩
        cases n with
        | zero => exact absurd hb hbad
        | succ n =>
          refine ⟨n, by simpa using hn, by omega, by simpa [Nat.add_right_comm, Nat.add_assoc] using hb, fun m hm => ?_⟩
          simpa [Nat.add_right_comm, Nat.add_assoc] using hgood (m + 1) (by omega)

end Sys2Proof.Machine

namespace Sys2Proof.Claims

open Sys2Proof.Machine

/-- The seven ways a line's tokens are bad (R61). -/
theorem parseTokens_eq_none {m : Token} {rest : List Token} :
    parseTokens (m :: rest) = none ↔
      (lookupMnemonic m mriMnemonics = none ∧ lookupMnemonic m rriMnemonics = none) ∨
      ((lookupMnemonic m mriMnemonics).isSome = true ∧
        (rest = [] ∨ (∃ operand more, rest = operand :: more ∧ operandValue operand = none) ∨
          (∃ operand marker more, rest = operand :: marker :: more ∧ marker ≠ ['I'] ∧ marker ≠ ['i']) ∨
          2 < rest.length)) ∨
      ((lookupMnemonic m rriMnemonics).isSome = true ∧ rest ≠ []) := by
  cases hm : lookupMnemonic m mriMnemonics with
  | none =>
    cases hr : lookupMnemonic m rriMnemonics with
    | none => simp [parseTokens_unknown hm hr]
    | some i => simp [parseTokens_register hm hr]
  | some mk =>
    rw [rri_eq_none_of_mri hm]
    match rest with
    | [] => simp [parseTokens_mri_length hm]
    | [operand] => simp [parseTokens_direct hm]
    | [operand, marker] =>
      rw [parseTokens_indirect hm]
      by_cases hmark : marker = ['I'] ∨ marker = ['i']
      · rw [if_pos hmark]
        rcases hmark with rfl | rfl <;> simp
      · rw [if_neg hmark]
        obtain ⟨hI, hi⟩ := not_or.mp hmark
        simp [hI, hi]
    | _ :: _ :: _ :: _ => simp [parseTokens_mri_length hm]

/-- Settles O6: the tokens by `parseTokens_eq_none`; the lines by `assembleFrom_error`, where only line 4097 can be the
first one without an address. -/
theorem syntaxErrorNamesFirstBadLine : Obligations.SyntaxErrorNamesFirstBadLine := by
  refine ⟨fun line => ?_, fun lines k => ?_⟩
  · rw [encodeText, Option.map_eq_none_iff]
    cases tokens line with
    | nil => exact iff_of_true rfl trivial
    | cons m rest => exact parseTokens_eq_none
  · rw [assembleLines, assembleFrom_error]
    have hgood {j : Nat} {line : String} : ¬ BadLine (1 + j) line ↔ j < 4096 ∧ (encodeLine line).isSome = true := by
      simp [BadLine, Config.memWords, Option.isSome_iff_ne_none]
      omega
    constructor
    · rintro ⟨n, hn, rfl, hbad, hfirst⟩
      refine ⟨fun j hj hlt => (hgood.mp (hfirst j (by omega))).2, ?_⟩
      by_cases hlast : n < 4096
      · have hnone : encodeLine lines[n] = none := hbad.resolve_left (by simp [Config.memWords]; omega)
        exact .inl ⟨by omega, by omega, by omega, by simpa using hnone⟩
      · have hn' : n ≤ 4096 := by
          by_contra hgt
          have := (hgood.mp (hfirst 4096 (by omega))).1
          omega
        exact .inr ⟨by omega, by omega⟩
    · rintro ⟨hfirst, ⟨hk, h1, hle, hnone⟩ | ⟨rfl, hlen⟩⟩
      · exact ⟨k - 1, hk, by omega, .inr hnone, fun m hm =>
          hgood.mpr ⟨by omega, hfirst m (by omega) (by omega)⟩⟩
      · exact ⟨4096, hlen, rfl, .inl (by simp [Config.memWords]), fun m hm =>
          hgood.mpr ⟨hm, hfirst m (by omega) (by omega)⟩⟩

end Sys2Proof.Claims
end

section
/-! What the instruction rules have in common (41_memory_reference.md, 42_register_reference.md): the text of an
instruction assembles to its word, and its word runs in its fixed number of micro-steps. -/

namespace Sys2Proof.Machine

/-! ### Tokens of a line -/

/-- A word of a line: characters without a blank. -/
def IsToken (t : Token) : Prop := t ≠ [] ∧ ∀ c ∈ t, isBlank c = false

theorem tokensFrom_append {t : Token} (h : ∀ c ∈ t, isBlank c = false) (cur : Token) (rest : List Char) :
    tokensFrom cur (t ++ rest) = tokensFrom (cur ++ t) rest := by
  induction t generalizing cur with
  | nil => simp
  | cons c t ih =>
    rw [List.cons_append, tokensFrom, h c List.mem_cons_self, if_neg Bool.false_ne_true,
      ih (fun d hd => h d (List.mem_cons_of_mem c hd)), List.append_assoc]
    rfl

/-- A line of one token (R56). -/
theorem tokens_singleton {t : Token} (h : IsToken t) : tokens t = [t] := by
  have happend := tokensFrom_append h.2 [] []
  rw [List.append_nil, List.nil_append] at happend
  rw [tokens, happend, tokensFrom, if_neg (by simpa using h.1)]

/-- The token before a space, and the tokens after it (R56). -/
theorem tokens_append_space {t : Token} (h : IsToken t) (rest : List Char) :
    tokens (t ++ ' ' :: rest) = t :: tokens rest := by
  rw [tokens, tokensFrom_append h.2, List.nil_append, tokensFrom, if_pos (by decide), if_neg (by simpa using h.1)]
  rfl

/-- Blanks have no case. -/
theorem isBlank_foldCase {c : Char} (h : isBlank c = true) : isBlank (foldCase c) = true := by
  simp only [isBlank, Bool.or_eq_true, beq_iff_eq] at h
  rcases h with rfl | rfl <;> decide

/-- A token in either letter case is a token. -/
theorem IsToken.of_foldCase {t u : Token} (h : t.map foldCase = u) (hu : IsToken u) : IsToken t := by
  subst h
  refine ⟨by simpa using hu.1, fun c hc => ?_⟩
  have hfold := hu.2 _ (List.mem_map_of_mem hc)
  cases hb : isBlank c with
  | false => rfl
  | true => rw [isBlank_foldCase hb] at hfold; cases hfold

/-- A lookup by token is a lookup by the name it spells (R56). -/
theorem lookupMnemonic_eq_lookup {α : Type} {t : Token} {name : String} (h : t.map foldCase = name.toList)
    (table : List (String × α)) : lookupMnemonic t table = table.lookup name := by
  induction table with
  | nil => rfl
  | cons entry rest ih =>
    obtain ⟨n, v⟩ := entry
    rw [lookupMnemonic, List.lookup, h, ih]
    by_cases hn : name = n
    · simp [hn]
    · rw [if_neg fun heq => hn (String.toList_injective heq), beq_false_of_ne hn]

/-- The mnemonics are tokens (R59). -/
theorem isToken_of_lookup {t : Token} {name : String} (h : t.map foldCase = name.toList)
    (hname : name ∈ mriMnemonics.map Prod.fst ++ rriMnemonics.map Prod.fst) : IsToken t := by
  have hall : ∀ n ∈ mriMnemonics.map Prod.fst ++ rriMnemonics.map Prod.fst, IsToken n.toList := by
    simp [mriMnemonics, rriMnemonics, IsToken, isBlank]
  exact .of_foldCase h (hall name hname)

/-- A blank is no digit (R57). -/
theorem digit_of_blank {c : Char} (h : isBlank c = true) : decimalDigit c = none ∧ hexDigit c = none := by
  simp only [isBlank, Bool.or_eq_true, beq_iff_eq] at h
  rcases h with rfl | rfl <;> decide

/-- A run of digits holds no blank. -/
theorem not_isBlank_of_digitsValue {digit : Char → Option Nat} (hd : ∀ c, isBlank c = true → digit c = none)
    {radix acc v : Nat} {cs : List Char} (h : digitsValue digit radix acc cs = some v) :
    ∀ c ∈ cs, isBlank c = false := by
  induction cs generalizing acc with
  | nil => simp
  | cons c cs ih =>
    unfold digitsValue at h
    split at h
    · refine List.forall_mem_cons.mpr ⟨?_, ih h⟩
      cases hb : isBlank c with
      | false => rfl
      | true => simp_all
    · cases h

/-- An operand that names an address is a token (R57, R58). -/
theorem isToken_of_operandValue {t : Token} {a : Address} (h : operandValue t = some a) : IsToken t := by
  have hex {cs : List Char} {v : Nat} (h : digitsValue hexDigit 16 0 cs = some v) :=
    not_isBlank_of_digitsValue (fun c hc => (digit_of_blank hc).2) h
  have hdec {cs : List Char} {v : Nat} (h : digitsValue decimalDigit 10 0 cs = some v) :=
    not_isBlank_of_digitsValue (fun c hc => (digit_of_blank hc).1) h
  cases hv : numberValue t with
  | none => simp [operandValue, hv] at h
  | some v =>
    unfold numberValue at hv
    split at hv
    · cases hv
    · exact ⟨by simp, List.forall_mem_cons.mpr ⟨by decide, List.forall_mem_cons.mpr ⟨by decide, hex hv⟩⟩⟩
    · exact ⟨by simp, List.forall_mem_cons.mpr ⟨by decide, List.forall_mem_cons.mpr ⟨by decide, hex hv⟩⟩⟩
    · exact ⟨‹_›, hdec hv⟩

end Sys2Proof.Machine
end

section
/-! The parts that the instruction rules have in common (41_memory_reference.md R75, 42_register_reference.md R84), from
the tables and one lemma per part. -/

namespace Sys2Proof.Machine

/-- The text of a memory-reference instruction, with and without its marker (R57, R59, R60). -/
theorem encodeText_memoryReference {mk : Bool → Address → Instr} {name : String} {text token : Token} {a : Address}
    (hname : mriMnemonics.lookup name = some mk) (htext : text.map foldCase = name.toList)
    (ha : operandValue token = some a) :
    encodeText (text ++ ' ' :: token) = some (encode (mk false a)) ∧
      encodeText (text ++ ' ' :: (token ++ [' ', 'I'])) = some (encode (mk true a)) := by
  have hm : lookupMnemonic text mriMnemonics = some mk := (lookupMnemonic_eq_lookup htext _).trans hname
  obtain ⟨n, hn, hfold⟩ := lookupMnemonic_some hm
  have ht := isToken_of_lookup hfold (List.mem_append_left _ (List.mem_map_of_mem hn))
  have ho := isToken_of_operandValue ha
  have hI : tokens ['I'] = [['I']] := by decide
  constructor
  · rw [encodeText, tokens_append_space ht, tokens_singleton ho, parseTokens_direct hm, ha]
    rfl
  · rw [encodeText, tokens_append_space ht, tokens_append_space ho, hI, parseTokens_indirect hm, if_pos (.inl rfl), ha]
    rfl

/-- The text of a register-reference instruction (R57, R59, R60). -/
theorem encodeText_registerReference {i : Instr} {name : String} {text : Token}
    (hnone : mriMnemonics.lookup name = none) (hname : rriMnemonics.lookup name = some i)
    (htext : text.map foldCase = name.toList) : encodeText text = some (encode i) := by
  have hm : lookupMnemonic text mriMnemonics = none := (lookupMnemonic_eq_lookup htext _).trans hnone
  have hr : lookupMnemonic text rriMnemonics = some i := (lookupMnemonic_eq_lookup htext _).trans hname
  obtain ⟨n, hn, hfold⟩ := lookupMnemonic_some hr
  have ht := isToken_of_lookup hfold (List.mem_append_right _ (List.mem_map_of_mem hn))
  rw [encodeText, tokens_singleton ht, parseTokens_register hm hr, if_pos rfl]
  rfl

end Sys2Proof.Machine

namespace Sys2Proof.Claims

open Sys2Proof.Machine

section
variable {mk : Bool → Address → Instr} (h : mk ∈ memoryReferences)
include h

/-- The I bit and the field are the arguments, and the opcode is the constructor's own (R53). -/
theorem memoryReference_parts (ind : Bool) (a : Address) :
    (mk ind a).indirectBit = ind ∧ (mk ind a).opcode = (mk false 0).opcode ∧ (mk ind a).field = a ∧
      Instr.readsPointer (mk ind a) = ind :=
  memoryReferences_cases (P := fun mk => (mk ind a).indirectBit = ind ∧ (mk ind a).opcode = (mk false 0).opcode ∧
      (mk ind a).field = a ∧ Instr.readsPointer (mk ind a) = ind)
    ⟨rfl, rfl, rfl, rfl⟩ ⟨rfl, rfl, rfl, rfl⟩ ⟨rfl, rfl, rfl, rfl⟩ ⟨rfl, rfl, rfl, rfl⟩ ⟨rfl, rfl, rfl, rfl⟩
    ⟨rfl, rfl, rfl, rfl⟩ ⟨rfl, rfl, rfl, rfl⟩ h

/-- The two words of a memory-reference instruction (R53). -/
theorem encode_memoryReference (a : Address) :
    encode (mk false a) = BitVec.ofNat 16 ((mk false 0).opcode.toNat * 0x1000) ||| a.setWidth 16 ∧
      encode (mk true a) =
        0x8000 ||| BitVec.ofNat 16 ((mk false 0).opcode.toNat * 0x1000) ||| a.setWidth 16 := by
  have hjoin : ∀ op : BitVec 3, BitVec.ofNat 16 (0x8000 + op.toNat * 0x1000) =
      0x8000 ||| BitVec.ofNat 16 (op.toNat * 0x1000) := by decide
  obtain ⟨hi, ho, hf, -⟩ := memoryReference_parts h false a
  obtain ⟨hi', ho', hf', -⟩ := memoryReference_parts h true a
  constructor
  · rw [encode_eq_or_field (mk false a) _ rfl, hi, ho, hf, Bool.toNat_false, Nat.zero_mul, Nat.zero_add]
  · rw [encode_eq_or_field (mk true a) _ rfl, hi', ho', hf', Bool.toNat_true, Nat.one_mul, hjoin]

/-- The number of micro-steps depends on neither the I bit nor the field (R74). -/
theorem microSteps_memoryReference (ind : Bool) (a : Address) : microSteps (mk ind a) = microSteps (mk false 0) := by
  rw [microSteps_eq, microSteps_eq, terminalState, terminalState, romRows_memoryReference h]

/-- What R76 to R82 have in common, from the opcode, the names and the number of micro-steps. -/
theorem memoryReferenceShape {base : Word} {names : List String} {steps : Nat}
    (hbase : base = BitVec.ofNat 16 ((mk false 0).opcode.toNat * 0x1000))
    (hnames : ∀ n ∈ names, mriMnemonics.lookup n = some mk) (hsteps : steps = microSteps (mk false 0)) :
    MemoryReferenceShape mk base names steps where
  encoding a := hbase ▸ encode_memoryReference h a
  decoding := decode_encode_memoryReference h
  assembly n hn text token a htext ha := encodeText_memoryReference (hnames n hn) htext ha
  exceptions ind a s f := exec_memoryReference_fault h
  stepCount ind a s hf hw hea := by
    have hdecode : decode (s.mem.read s.PC) = mk ind a := hw ▸ decode_encode_memoryReference h ind a
    obtain ⟨-, -, hfield, hreads⟩ := memoryReference_parts h ind a
    obtain ⟨ea, hsome⟩ : ∃ ea, addressAfterT2 (decode (s.mem.read s.PC)) s.mem = some ea := by
      rw [hdecode, addressAfterT2_eq_parts, hreads, hfield]
      cases ind with
      | false => exact ⟨a, rfl⟩
      | true => exact ⟨_, if_pos (hea rfl)⟩
    obtain ⟨t, ht, -, -⟩ := runInstruction_wholeEffect hf hsome
    exact ⟨t, by rw [ht, hdecode, microSteps_memoryReference h, hsteps]⟩

end

/-- An instruction without an indirect operand raises no error (R36). -/
theorem exec_ne_fault {i : Instr} (hi : Instr.readsPointer i = false) (s : State) (f : Fault) :
    exec i s ≠ .fault f := by
  intro h
  have hT := (exec_fault h).1
  rw [exec_eq, instructionStep_at_T2 hT, operandOf_eq_parts, hi] at h
  cases (memoryOperand_fault h).1

/-- T2 of an instruction without an indirect operand loads its field (R69). -/
theorem addressAfterT2_field {i : Instr} (hi : Instr.readsPointer i = false) (m : Memory) :
    addressAfterT2 i m = some i.field := by
  rw [addressAfterT2_eq_parts, hi]
  rfl

/-- `runInstruction` of such an instruction from its fetch. -/
theorem runInstruction_field {i : Instr} {s : State} (hi : Instr.readsPointer i = false) (hwf : i.WellFormed = true)
    (hf : s.AtFetch) (hw : s.mem.read s.PC = encode i) :
    ∃ t, runInstruction s = ⟨t, .ok (microSteps i)⟩ ∧
      t = { wholeEffect i { s with IR := encode i, PC := s.PC + 1, AR := i.field } with T := 0, trace := t.trace } ∧
      t.trace.map TraceEntry.label = s.trace.map TraceEntry.label ++ cycleLabels (microSteps i) := by
  have hdecode : decode (s.mem.read s.PC) = i := by rw [hw, decode_encode hwf]
  have hrun := runInstruction_wholeEffect hf (by rw [hdecode]; exact addressAfterT2_field hi s.mem)
  rwa [hdecode, hw] at hrun

/-- What R85 to R96 have in common, from the word and the names. -/
theorem registerReferenceShape {i : Instr} {word : Word} {names : List String} (hword : encode i = word)
    (hwf : i.WellFormed = true) (hi : Instr.readsPointer i = false) (hsteps : microSteps i = 4)
    (hnames : ∀ n ∈ names, mriMnemonics.lookup n = none ∧ rriMnemonics.lookup n = some i) :
    RegisterReferenceShape i word names where
  encoding := ⟨hword, hword ▸ decode_encode hwf⟩
  assembly n hn text htext := hword ▸ encodeText_registerReference (hnames n hn).1 (hnames n hn).2 htext
  exceptions := exec_ne_fault hi
  stepCount s hf hw := by
    obtain ⟨t, ht, -, -⟩ := runInstruction_field hi hwf hf (hw.trans hword.symm)
    exact ⟨t, hsteps ▸ ht⟩

end Sys2Proof.Claims
end

section
/-! The rules of the memory-reference instructions (41_memory_reference.md R76 to R82): the common shape, and the
execute states. -/

namespace Sys2Proof.Machine

/-- T4 of AND (R76). -/
theorem exec_and_T4 (ind : Bool) (a : Address) {s : State} (hT : s.T = 4) :
    exec (.and ind a) s = .next { s with AC := s.AC &&& s.DR, T := 0 } := by
  rw [exec_row_last 1 (congrArg BitVec.toNat hT) rfl]
  rfl

/-- T3 of BUN (R80). -/
theorem exec_bun_T3 (ind : Bool) (a : Address) {s : State} (hT : s.T = 3) :
    exec (.bun ind a) s = .next { s with PC := s.AR, T := 0 } := by
  rw [exec_row_last 0 (congrArg BitVec.toNat hT) rfl]
  rfl

/-- T4 of BSA (R81). -/
theorem exec_bsa_T4 (ind : Bool) (a : Address) {s : State} (hT : s.T = 4) :
    exec (.bsa ind a) s = .next { s with PC := s.AR, T := 0 } := by
  rw [exec_row_last 1 (congrArg BitVec.toNat hT) rfl]
  rfl

end Sys2Proof.Machine

namespace Sys2Proof.Claims

open Sys2Proof.Machine

/-- Settles O20: the common shape, the read of the operand, and the AND of T4. -/
theorem andRule : Obligations.AndRule :=
  ⟨memoryReferenceShape (by simp [memoryReferences]) rfl (by simp [mriMnemonics, List.lookup]) rfl, fun ind a s =>
    ⟨fun hT => exec_readOperand_T3 hT rfl, exec_and_T4 ind a⟩⟩

/-- Settles O21: T4 is the exact sum, as a word and as its carry. -/
theorem addRule : Obligations.AddRule :=
  ⟨memoryReferenceShape (by simp [memoryReferences]) rfl (by simp [mriMnemonics, List.lookup]) rfl, fun ind a s =>
    ⟨fun hT => exec_readOperand_T3 hT rfl, fun hT => by rw [exec_add_T4 ind a hT, sumWord_eq, sumCarry_eq]⟩⟩

/-- Settles O22: the common shape, the read of the operand, and the copy of T4. -/
theorem loadRule : Obligations.LoadRule :=
  ⟨memoryReferenceShape (by simp [memoryReferences]) rfl (by simp [mriMnemonics, List.lookup]) rfl, fun ind a s =>
    ⟨fun hT => exec_readOperand_T3 hT rfl, exec_load_T4 ind a⟩⟩

/-- Settles O23: the store is a write of AC at AR. -/
theorem storeRule : Obligations.StoreRule :=
  ⟨memoryReferenceShape (by simp [memoryReferences]) rfl (by simp [mriMnemonics, List.lookup]) rfl,
    fun ind a s hwf hT => ⟨_, exec_store_T3 ind a hT, Memory.read_write_same _ _ hwf, fun _ =>
      Memory.read_write_other _ _⟩⟩

/-- Settles O24: the common shape, and the branch of T3. -/
theorem bunRule : Obligations.BunRule :=
  ⟨memoryReferenceShape (by simp [memoryReferences]) rfl (by simp [mriMnemonics, List.lookup]) rfl, fun ind a s =>
    exec_bun_T3 ind a⟩

/-- PC, zero-extended to a word, is the same number (R81). -/
theorem toNat_zext (pc : Address) : (pc.setWidth 16).toNat = pc.toNat := by
  rw [BitVec.toNat_setWidth]
  exact Nat.mod_eq_of_lt (pc.isLt.trans (by decide))

/-- Settles O25: T3 writes PC at the old AR and increments AR. -/
theorem bsaRule : Obligations.BsaRule := by
  refine ⟨memoryReferenceShape (by simp [memoryReferences]) rfl (by simp [mriMnemonics, List.lookup]) rfl,
    fun ind a s => ⟨fun hwf hT => ?_, exec_bsa_T4 ind a⟩⟩
  refine ⟨_, by rw [exec_bsa_T3 ind a hT, address_add_one], ?_, fun _ => Memory.read_write_other _ _⟩
  rw [Memory.read_write_same _ _ hwf, toNat_zext]

/-- Settles O26: T5 writes the incremented DR at AR, and skips where it is zero. -/
theorem iszRule : Obligations.IszRule := by
  refine ⟨memoryReferenceShape (by simp [memoryReferences]) rfl (by simp [mriMnemonics, List.lookup]) rfl,
    fun ind a s => ⟨fun hT => exec_readOperand_T3 hT rfl, exec_isz_T4 ind a, fun hwf hT => ?_⟩⟩
  exact ⟨_, by rw [exec_isz_T5 ind a hT, isZeroWord_eq, skipTarget_decide], Memory.read_write_same _ _ hwf,
    fun _ => Memory.read_write_other _ _⟩

end Sys2Proof.Claims
end

section
/-! The rules of the register-reference instructions, IO and NOP (42_register_reference.md R85 to R96,
43_io_and_nop.md R97, R98): one execute state each, which is the whole effect. -/

namespace Sys2Proof.Claims

open Sys2Proof.Machine

/-- T3 run again from wherever the registers are left, of an instruction with one ROM row. -/
theorem again_single_row {i : Instr} (hrows : (romRows i).length = 1) (s : State) :
    again i s = { wholeEffect i { s with T := 3 } with T := 0 } := by
  rw [again, exec_single_row rfl hrows]

/-- The complement plus one is the two's complement (R87). -/
theorem not_add_one (ac : Word) : ~~~ac + 1 = -ac := (BitVec.neg_eq_not_add ac).symm

/-- Adding one to a Word is adding one modulo 2^16 (R91). -/
theorem word_add_one (v : Word) : v + 1 = BitVec.ofNat 16 ((v.toNat + 1) % 65536) := by
  apply BitVec.eq_of_toNat_eq
  simp [BitVec.toNat_add]

/-- Settles O27: each T3 is the whole effect; INC after CMA adds one to the complement. -/
theorem clearComplementIncrementRules : Obligations.ClearComplementIncrementRules := by
  refine ⟨⟨registerReferenceShape (by decide) rfl rfl rfl (by decide), fun s hT => exec_single_row hT rfl⟩,
    ⟨registerReferenceShape (by decide) rfl rfl rfl (by decide), fun s hT => exec_single_row hT rfl⟩,
    ⟨registerReferenceShape (by decide) rfl rfl rfl (by decide), fun s hT => exec_single_row hT rfl, fun s => ?_⟩,
    ⟨registerReferenceShape (by decide) rfl rfl rfl (by decide), fun s hT => exec_single_row hT rfl⟩,
    ⟨registerReferenceShape (by decide) rfl rfl rfl (by decide), fun s hT => ?_⟩⟩
  · rw [again_single_row rfl, again_single_row rfl]
    exact not_add_one s.AC
  · rw [exec_single_row hT rfl, ← word_add_one]
    rfl

/-- Settles O29: each T3 is the whole effect, whose conditions are the rules' own. -/
theorem skipRules : Obligations.SkipRules :=
  ⟨⟨registerReferenceShape (by decide) rfl rfl rfl (by decide), fun _ hT => exec_single_row hT rfl⟩,
    ⟨registerReferenceShape (by decide) rfl rfl rfl (by decide), fun _ hT => exec_single_row hT rfl⟩,
    ⟨registerReferenceShape (by decide) rfl rfl rfl (by decide), fun _ hT => exec_single_row hT rfl⟩,
    ⟨registerReferenceShape (by decide) rfl rfl rfl (by decide), fun _ hT => exec_single_row hT rfl⟩⟩

/-! ### The rotations -/

/-- The 17-bit quantity rotated right by one (R89). -/
def rotateRight17 (x : Nat) : Nat := x / 2 + x % 2 * 65536

/-- The 17-bit quantity rotated left by one (R90). -/
def rotateLeft17 (x : Nat) : Nat := x * 2 % 131072 + x / 65536

/-- `n` turns to the right move the lower `n` bits above the upper `17 - n`. -/
theorem rotateRight17_iterate (x : Nat) {n : Nat} (hn : n ≤ 17) :
    rotateRight17^[n] x = x / 2 ^ n + x % 2 ^ n * 2 ^ (17 - n) := by
  induction n with
  | zero => simp [Nat.mod_one]
  | succ n ih =>
    have hsplit : x % 2 ^ n * 2 ^ (17 - n) = 2 * (x % 2 ^ n * 2 ^ (16 - n)) := by
      rw [show 17 - n = 16 - n + 1 by omega, Nat.pow_succ]
      ring
    have hjoin : 2 ^ n * (x / 2 ^ n % 2) * 2 ^ (16 - n) = x / 2 ^ n % 2 * 65536 := by
      rw [Nat.mul_right_comm, ← Nat.pow_add, show n + (16 - n) = 16 by omega, Nat.mul_comm]
    rw [Function.iterate_succ_apply', ih (by omega), rotateRight17, hsplit, show 17 - (n + 1) = 16 - n by omega,
      Nat.mod_pow_succ, Nat.add_mul, hjoin, Nat.pow_succ, ← Nat.div_div_eq_div_mul]
    omega

/-- Seventeen turns to the right restore a 17-bit quantity. -/
theorem rotateRight17_seventeen {x : Nat} (hx : x < 131072) : rotateRight17^[17] x = x := by
  rw [rotateRight17_iterate x le_rfl]
  omega

/-- A turn to the right undoes a turn to the left. -/
theorem rotateRight17_rotateLeft17 {x : Nat} (hx : x < 131072) : rotateRight17 (rotateLeft17 x) = x := by
  unfold rotateRight17 rotateLeft17
  have htop : x / 65536 = 0 ∨ x / 65536 = 1 := by omega
  rcases htop with htop | htop <;> rw [htop] <;> omega

theorem rotateLeft17_lt {x : Nat} (hx : x < 131072) : rotateLeft17 x < 131072 := by
  unfold rotateLeft17
  omega

/-- Turns to the right undo as many turns to the left. -/
theorem rotateRight17_rotateLeft17_iterate (n : Nat) {x : Nat} (hx : x < 131072) :
    rotateRight17^[n] (rotateLeft17^[n] x) = x := by
  induction n generalizing x with
  | zero => rfl
  | succ n ih =>
    rw [Function.iterate_succ_apply', Function.iterate_succ_apply, ih (rotateLeft17_lt hx),
      rotateRight17_rotateLeft17 hx]

/-- Every state's quantity has 17 bits. -/
theorem flagAndAC_lt (s : State) : flagAndAC s < 131072 := by
  have := s.E.isLt
  have := s.AC.isLt
  unfold flagAndAC
  omega

/-- The quantity determines AC and E. -/
theorem eq_of_flagAndAC_eq {s t : State} (h : flagAndAC t = flagAndAC s) : t.AC = s.AC ∧ t.E = s.E := by
  have := s.AC.isLt
  have := t.AC.isLt
  unfold flagAndAC at h
  exact ⟨BitVec.eq_of_toNat_eq (by omega), BitVec.eq_of_toNat_eq (by omega)⟩

/-- T3 of CIR, by its arithmetic (R89). -/
theorem exec_cir_T3 {s : State} (hT : s.T = 3) :
    exec .cir s = .next { s with AC := circulateRightWord s.E s.AC, E := circulateRightFlag s.AC, T := 0 } := by
  rw [exec_row_last 0 (congrArg BitVec.toNat hT) rfl]
  rfl

/-- T3 of CIL, by its arithmetic (R90). -/
theorem exec_cil_T3 {s : State} (hT : s.T = 3) :
    exec .cil s = .next { s with AC := circulateLeftWord s.E s.AC, E := circulateLeftFlag s.AC, T := 0 } := by
  rw [exec_row_last 0 (congrArg BitVec.toNat hT) rfl]
  rfl

/-- CIR's results are the rotated quantity. -/
theorem circulateRight_toNat (e : Flag) (ac : Word) :
    (circulateRightFlag ac).toNat * 65536 + (circulateRightWord e ac).toNat =
      rotateRight17 (e.toNat * 65536 + ac.toNat) := by
  have := e.isLt
  have := ac.isLt
  simp only [circulateRightFlag, circulateRightWord, rotateRight17, BitVec.toNat_ofNat]
  omega

/-- CIL's results are the rotated quantity. -/
theorem circulateLeft_toNat (e : Flag) (ac : Word) :
    (circulateLeftFlag ac).toNat * 65536 + (circulateLeftWord e ac).toNat =
      rotateLeft17 (e.toNat * 65536 + ac.toNat) := by
  have := e.isLt
  have := ac.isLt
  simp only [circulateLeftFlag, circulateLeftWord, rotateLeft17, BitVec.toNat_ofNat]
  have htop : ac.toNat / 0x8000 = 0 ∨ ac.toNat / 0x8000 = 1 := by omega
  have hquot : (e.toNat * 65536 + ac.toNat) / 65536 = e.toNat := by omega
  have hword : (ac.toNat * 2 % 2 ^ 16 + e.toNat) % 2 ^ 16 = ac.toNat * 2 % 2 ^ 16 + e.toNat := by omega
  have hturn : (e.toNat * 65536 + ac.toNat) * 2 % 131072 = ac.toNat * 2 := by omega
  rw [hquot, hword, hturn]
  rcases htop with htop | htop <;> rw [htop] <;> omega

theorem flagAndAC_again_cir (s : State) : flagAndAC (again .cir s) = rotateRight17 (flagAndAC s) := by
  rw [again, exec_cir_T3 rfl]
  exact circulateRight_toNat s.E s.AC

theorem flagAndAC_again_cil (s : State) : flagAndAC (again .cil s) = rotateLeft17 (flagAndAC s) := by
  rw [again, exec_cil_T3 rfl]
  exact circulateLeft_toNat s.E s.AC

/-- Seventeen CIR restore AC and E. -/
theorem again_cir_seventeen (s : State) : ((again .cir)^[17] s).AC = s.AC ∧ ((again .cir)^[17] s).E = s.E := by
  have hsemi : Function.Semiconj flagAndAC (again .cir) rotateRight17 := flagAndAC_again_cir
  refine eq_of_flagAndAC_eq ?_
  rw [(hsemi.iterate_right 17).eq, rotateRight17_seventeen (flagAndAC_lt s)]

/-- Seventeen CIL restore AC and E: seventeen turns to the right undo them, and change nothing. -/
theorem again_cil_seventeen (s : State) : ((again .cil)^[17] s).AC = s.AC ∧ ((again .cil)^[17] s).E = s.E := by
  have hsemi : Function.Semiconj flagAndAC (again .cil) rotateLeft17 := flagAndAC_again_cil
  have hback := rotateRight17_rotateLeft17_iterate 17 (flagAndAC_lt s)
  rw [← (hsemi.iterate_right 17).eq, rotateRight17_seventeen (flagAndAC_lt _)] at hback
  exact eq_of_flagAndAC_eq hback

/-- Settles O28: T3 is the model's arithmetic, which rotates the 17-bit quantity. -/
theorem circulateRules : Obligations.CirculateRules :=
  ⟨⟨registerReferenceShape (by decide) rfl rfl rfl (by decide),
      fun s hT => ⟨_, exec_cir_T3 hT, rfl, circulateRight_toNat s.E s.AC⟩, again_cir_seventeen⟩,
    ⟨registerReferenceShape (by decide) rfl rfl rfl (by decide),
      fun s hT => ⟨_, exec_cil_T3 hT, rfl, circulateLeft_toNat s.E s.AC⟩, again_cil_seventeen⟩⟩

end Sys2Proof.Claims
end

section
/-! HALT (42_register_reference.md R96) and the words without an effect (43_io_and_nop.md R97, R98), which no line
assembles to. -/

namespace Sys2Proof.Claims

open Sys2Proof.Machine

/-- A memory-reference instruction does not have opcode 7 (R53). -/
theorem opcode_memoryReference {mk : Bool → Address → Instr} (h : mk ∈ memoryReferences) (ind : Bool) (a : Address) :
    (mk ind a).opcode ≠ 7 := by
  rw [(memoryReference_parts h ind a).2.1]
  exact memoryReferences_cases (P := fun mk => (mk false 0).opcode ≠ 7) (by decide) (by decide) (by decide)
    (by decide) (by decide) (by decide) (by decide) h

/-- What a line can assemble to: a memory-reference word, or a word of one of the twelve register-reference fields
(R59). -/
theorem encodeText_fields {line : List Char} {w : Word} (h : encodeText line = some w) :
    opField w ≠ 7 ∨ (iBit w = false ∧ addrField w ∈ oneHotFields) := by
  obtain ⟨i, hi, rfl⟩ := encodeText_some h
  obtain ⟨hind, hop, hfield⟩ := Laws.EncodedFields.of_pack i
  rw [hind, hop, hfield]
  rcases parseTokens_some hi with ⟨m, mk, operand, a, -, hm, -, rfl⟩ | ⟨m, mk, operand, marker, a, -, hm, -, -, rfl⟩ |
    ⟨m, -, hm⟩
  · exact .inl (opcode_memoryReference (mem_memoryReferences_of_lookup hm) _ a)
  · exact .inl (opcode_memoryReference (mem_memoryReferences_of_lookup hm) _ a)
  · obtain ⟨-, hone, hi0, -⟩ := mem_rriMnemonics hm
    exact .inr ⟨hi0, hone⟩

/-- T3 of HALT references nothing (R73). -/
theorem referenced_halt {s : State} (hT : s.T = 3) (hi : decode s.IR = .halt) : referenced s = none := by
  simp [referenced, hT, hi]

/-- The host's step in T3 of HALT (R96, R104). -/
theorem hostStep_halt_T3 {s : State} (hr : s.Running 3) (hi : decode s.IR = .halt) :
    hostStep s = ⟨recorded s { s with halted := true, T := 0 } none, .ok ⟨0, true, false⟩⟩ := by
  have hT := hr.2.2
  have hx : timingState s = .next { s with halted := true, T := 0 } := by
    rw [timingState_of_two_le (by simp [hT]), hi, exec_halt_T3 hT]
  have hstep := step_eq_recorded hr hx
  rw [memoryReference_eq_referenced, referenced_halt hT hi] at hstep
  exact hostStep_of_next hr hstep

/-- Settles O30: HALT's one row sets the flag, and `runInstruction` ends there. -/
theorem haltRule : Obligations.HaltRule := by
  refine ⟨registerReferenceShape (by decide) rfl rfl rfl (by decide), fun s => exec_halt_T3,
    fun s hr hIR => hostStep_halt_T3 hr (by rw [hIR]; decide), fun s hf hw => ?_⟩
  have hword : encode .halt = 0x7001 := by decide
  obtain ⟨t, ht, heq, hlabels⟩ := runInstruction_field (i := .halt) rfl rfl hf (by rw [hw, hword])
  rw [hword] at heq
  simp only [wholeEffect] at heq
  have hasm : t.assembled = true := (congrArg State.assembled heq).trans hf.1.1
  have hT : t.T = 0 := congrArg State.T heq
  refine ⟨t, ht, heq, hlabels, ?_⟩
  rw [hostStep_halted hasm (congrArg State.halted heq), hT]

/-- `runInstruction` of an instruction without an effect changes IR, PC, AR and the trace alone (R97, R98). -/
theorem runInstruction_noEffect {i : Instr} {s : State} (hi : Instr.readsPointer i = false)
    (hwf : i.WellFormed = true) (hsteps : microSteps i = 4) (heffect : ∀ u, wholeEffect i u = u) (hf : s.AtFetch)
    (hw : s.mem.read s.PC = encode i) :
    ∃ t, runInstruction s = ⟨t, .ok 4⟩ ∧
      t = { s with IR := encode i, PC := s.PC + 1, AR := i.field, trace := t.trace } := by
  obtain ⟨t, ht, heq, -⟩ := runInstruction_field hi hwf hf hw
  have hT := hf.1.2.2
  rw [heffect, ← hT] at heq
  exact ⟨t, hsteps ▸ ht, heq⟩

/-- Settles O31: an I/O word has opcode 7 with bit 15 set, as no assembled word has, and its row is empty. -/
theorem ioRule : Obligations.IoRule := by
  intro b
  have hword : encode (.io b) = 0xF000 ||| b.setWidth 16 :=
    encode_eq_or_field (.io b) 0xF000 (by simp [Instr.opcode, Instr.indirectBit])
  obtain ⟨hind, hop, -⟩ := Laws.EncodedFields.io b
  rw [← hword]
  refine ⟨decode_encode rfl, fun line h => ?_, exec_ne_fault rfl, fun s hT => exec_single_row hT rfl,
    fun s hf hw => runInstruction_noEffect rfl rfl rfl (fun _ => rfl) hf hw⟩
  rcases encodeText_fields h with hne | ⟨h0, -⟩
  · exact hne hop
  · cases hind.symm.trans h0

/-- Settles O32: a NOP's field is no register-reference field, as every assembled word's is, and its row is empty. -/
theorem nopRule : Obligations.NopRule := by
  intro b
  have hword : encode (.nop b) = 0x7000 ||| b.setWidth 16 :=
    encode_eq_or_field (.nop b) 0x7000 (by simp [Instr.opcode, Instr.indirectBit])
  obtain ⟨-, hop, hfield⟩ := Laws.EncodedFields.nop b
  rw [← hword, ← nop_wellFormed_iff]
  refine ⟨⟨fun h => h ▸ (decode_parts (encode (.nop b))).1, decode_encode⟩, fun hwf line h => ?_, exec_ne_fault rfl,
    fun s hT => exec_single_row hT rfl,
    fun hwf s hf hw => runInstruction_noEffect rfl hwf rfl (fun _ => rfl) hf hw⟩
  rcases encodeText_fields h with hne | ⟨-, hone⟩
  · exact hne hop
  · rw [hfield] at hone
    simp [Instr.WellFormed, show b ∈ oneHotFields from hone] at hwf

end Sys2Proof.Claims
end

section
/-! Memory as the host and the steps see it (20_memory.md R34 to R45, 44_host_operations.md R101 to R103,
70_reset_and_hazards.md R124, R125, R130). -/

namespace Sys2Proof.Machine

/-- A number below the memory size is its Address (R8). -/
theorem toNat_address {a : Nat} (h : a ≤ 4095) : (BitVec.ofNat 12 a).toNat = a := by
  rw [BitVec.toNat_ofNat]
  exact Nat.mod_eq_of_lt (by omega)

/-- The last address is 4095 (R8, R31). -/
theorem lt_memWords_iff {a : Nat} : a < Config.memWords ↔ a ≤ 4095 := Nat.lt_succ_iff

/-- Masking a number to a Word (R35). -/
theorem ofNat_mod_word (v : Nat) : BitVec.ofNat 16 (v % 65536) = BitVec.ofNat 16 v := by
  apply BitVec.eq_of_toNat_eq
  simp

theorem memRead_of_le (m : Memory) {a : Nat} (h : a ≤ 4095) : memRead m a = .ok (m.read (BitVec.ofNat 12 a)) := by
  rw [memRead, if_pos (lt_memWords_iff.mpr h), Memory.read, toNat_address h]

theorem memRead_of_gt (m : Memory) {a : Nat} (h : 4095 < a) : memRead m a = .error (.outOfRange a) := by
  rw [memRead, if_neg (mt lt_memWords_iff.mp (Nat.not_le.mpr h))]

theorem memWrite_of_le (m : Memory) {a : Nat} (v : Nat) (h : a ≤ 4095) :
    memWrite m a v = .ok (m.put a (BitVec.ofNat 16 v)) := by
  rw [memWrite, if_pos (lt_memWords_iff.mpr h)]

theorem memWrite_of_gt (m : Memory) {a : Nat} (v : Nat) (h : 4095 < a) :
    memWrite m a v = .error (.outOfRange a) := by
  rw [memWrite, if_neg (mt lt_memWords_iff.mp (Nat.not_le.mpr h))]

/-- A read of the primitive depends on the cell alone. -/
theorem memRead_congr {m n : Memory} {a : Nat} (h : n.get a = m.get a) : memRead n a = memRead m a := by
  rw [memRead, memRead, h]

/-- The host's write to an Address, as a write of that cell (R102). -/
theorem writeMemory_address (a : Address) (v : Nat) (s : State) :
    writeMemory a.toNat v s = ⟨{ s with mem := s.mem.write a (BitVec.ofNat 16 v) }, .ok ()⟩ :=
  writeMemory_ok v s a.isLt

/-- `writeMemory` keeps IR (R45, R130). -/
theorem writeMemory_IR (a v : Nat) (s : State) : (writeMemory a v s).state.IR = s.IR := by
  by_cases h : a < Config.memWords
  · rw [writeMemory_ok v s h]
  · rw [writeMemory_bad v s (Nat.not_lt.mp h)]

end Sys2Proof.Machine

namespace Sys2Proof.Claims

open Sys2Proof.Machine

/-- Settles O7: the range check of each primitive, and a read after a write. -/
theorem memoryPrimitives : Obligations.MemoryPrimitives := by
  refine fun m hwf a v => ⟨fun h => ⟨memRead_of_le m h, _, memWrite_of_le m v h, ?_, ?_, fun b hb => ?_⟩, fun h =>
    ⟨memRead_of_gt m h, memWrite_of_gt m v h⟩⟩
  · exact Memory.wf_memWrite hwf (memWrite_of_le m v h)
  · rw [memRead_of_le _ h, Memory.read, toNat_address h, Memory.get_put_same _ hwf]
    exact congrArg Except.ok (ofNat_mod_word v).symm
  · exact memRead_congr (Memory.get_put_other m _ hb)

/-- Settles O48: the range check, and the put of the masked word. -/
theorem writeMemoryTouchesOneCell : Obligations.WriteMemoryTouchesOneCell := by
  refine fun s a w hwf => ⟨fun h => writeMemory_bad w s h, fun h => ?_⟩
  have hok := writeMemory_address (BitVec.ofNat 12 a) w s
  rw [toNat_address h] at hok
  exact ⟨_, hok, by rw [Memory.read_write_same _ _ hwf, ofNat_mod_word], fun b => Memory.read_write_other _ _⟩

/-- Settles O43: the saved word is PC zero-extended, an Address, which T2 loads into AR and T3 into PC. -/
theorem indirectBranchReturnsFromCall : Obligations.IndirectBranchReturnsFromCall := by
  intro ind a s t u hwf hT h hmem hTu
  rw [exec_bsa_T3 ind a hT] at h
  cases h
  have hread : u.mem.read s.AR = s.PC.setWidth 16 := by
    rw [hmem]
    exact Memory.read_write_same _ _ hwf
  have hea : effectiveAddress true s.AR u.mem = some s.PC := by
    rw [effectiveAddress, if_pos rfl, hread, if_pos]
    · rw [BitVec.setWidth_setWidth_of_le _ (by decide), BitVec.setWidth_eq]
    · rw [toNat_zext]
      exact Nat.le_of_lt_succ s.PC.isLt
  exact ⟨_, exec_T2_of_effectiveAddress (by simp [memoryReferences]) hTu hea, exec_bun_T3 true s.AR rfl⟩

/-! ### Stores and host writes seen by later micro-steps -/

/-- T1 loads the word at AR into IR (R68). -/
theorem step_T1_IR {u : State} (hr : u.Running 1) : ∃ w, step u = .next w ∧ w.IR = u.mem.read u.AR :=
  ⟨_, step_eq_recorded hr (timingState_of_T_eq_one hr.2.2), rfl⟩

/-- The micro-steps that store leave their word in the cell at AR, and keep IR (R39, R45). -/
theorem step_stores {s t : State} {v : Word} (hwf : s.mem.wf = true) (hh : s.halted = false) (h : step s = .next t)
    (hstore : (s.T = 3 ∧ (∃ ind a, decode s.IR = .store ind a) ∧ v = s.AC) ∨
      (s.T = 3 ∧ (∃ ind a, decode s.IR = .bsa ind a) ∧ v = s.PC.setWidth 16) ∨
      (s.T = 5 ∧ (∃ ind a, decode s.IR = .isz ind a) ∧ v = s.DR)) :
    t.IR = s.IR ∧ t.mem.read s.AR = v := by
  have hT : 2 ≤ s.T.toNat := by
    rcases hstore with ⟨hT, -⟩ | ⟨hT, -⟩ | ⟨hT, -⟩ <;> simp [hT]
  obtain ⟨-, -, hexec, -⟩ := fetchRegisterWriters.1 s t h hh
  obtain ⟨u, hx, rfl⟩ := hexec hT
  refine ⟨(exec_keeps hx).1, ?_⟩
  show u.mem.read s.AR = v
  rcases hstore with ⟨hT, ⟨ind, a, hi⟩, rfl⟩ | ⟨hT, ⟨ind, a, hi⟩, rfl⟩ | ⟨hT, ⟨ind, a, hi⟩, rfl⟩ <;> rw [hi] at hx
  · rw [exec_store_T3 ind a hT] at hx
    cases hx
    exact Memory.read_write_same _ _ hwf
  · rw [exec_bsa_T3 ind a hT] at hx
    cases hx
    exact Memory.read_write_same _ _ hwf
  · rw [exec_isz_T5 ind a hT] at hx
    cases hx
    exact Memory.read_write_same _ _ hwf

/-- Settles O44: the store leaves its word in the cell, and T1 loads what the cell holds. -/
theorem fetchSeesStoredWord : Obligations.FetchSeesStoredWord := by
  refine fun s u hwf hr => ⟨fun t v hh h hstore hAR hsame => ?_, fun a x ha hAR hsame => ⟨writeMemory_IR a x s, ?_⟩⟩
  · obtain ⟨hIR, hread⟩ := step_stores hwf hh h hstore
    obtain ⟨w, hw, hwIR⟩ := step_T1_IR hr
    exact ⟨hIR, w, hw, by rw [hwIR, hAR, hsame, hread]⟩
  · obtain ⟨w, hw, hwIR⟩ := step_T1_IR hr
    have hok := writeMemory_address (BitVec.ofNat 12 a) x s
    rw [toNat_address ha] at hok
    refine ⟨w, hw, ?_⟩
    rw [hwIR, hsame, hok, hAR, Memory.read_write_same _ _ hwf, ofNat_mod_word]

/-- A running block in a timing state from T2 on steps to the outcome of its instruction (R65). -/
theorem step_of_exec {s u : State} {n : TimingState} (hr : s.Running n) (hn : 2 ≤ n.toNat)
    (hx : exec (decode s.IR) s = .next u) : step s = .next (recorded s u (memoryReference s)) := by
  have hT : 2 ≤ s.T.toNat := by rwa [hr.2.2]
  exact step_eq_recorded hr ((timingState_of_two_le hT).trans hx)

/-- T5 of ISZ leaves DR in the cell at AR (R82). -/
theorem step_isz_T5 {s : State} (hwf : s.mem.wf = true) (hr : s.Running 5)
    (hi : ∃ ind a, decode s.IR = .isz ind a) : ∃ t, step s = .next t ∧ t.mem.read s.AR = s.DR := by
  obtain ⟨ind, a, hi⟩ := hi
  have hstep := step_of_exec hr (by decide) (hi ▸ exec_isz_T5 ind a hr.2.2)
  exact ⟨_, hstep, Memory.read_write_same _ _ hwf⟩

/-- T4 and T5 of ISZ leave the incremented DR in the cell at AR (R82). -/
theorem steps_isz_T4 {s : State} (hwf : s.mem.wf = true) (hr : s.Running 4)
    (hi : ∃ ind a, decode s.IR = .isz ind a) : ∃ t, stepsFrom 2 s = .next t ∧ t.mem.read s.AR = s.DR + 1 := by
  have ⟨ind, a, hd⟩ := hi
  have hstep := step_of_exec hr (by decide) (hd ▸ exec_isz_T4 ind a hr.2.2)
  obtain ⟨t, ht, hread⟩ := step_isz_T5 (s := recorded s { s with DR := s.DR + 1, T := 5 } (memoryReference s)) hwf
    ⟨hr.1, hr.2.1, rfl⟩ hi
  exact ⟨t, stepsFrom_two hstep ht, hread⟩

/-- T1 and T2 of an indirect word load the Address that its pointer cell holds into AR (R68, R69). -/
theorem steps_T1_pointer {s : State} {v : Nat} (hr : s.Running 1)
    (hi : opField (s.mem.read s.AR) ≠ 7 ∧ iBit (s.mem.read s.AR) = true)
    (hread : s.mem.read (addrField (s.mem.read s.AR)) = BitVec.ofNat 16 v) (hv : v ≤ 4095) :
    ∃ t, stepsFrom 2 s = .next t ∧ t.AR = BitVec.ofNat 12 v := by
  have hstep := step_eq_recorded hr (timingState_of_T_eq_one hr.2.2)
  obtain ⟨t, ht, hAR, -⟩ := step_T2_pointer (s := recorded s (fetchState s) (memoryReference s)) ⟨hr.1, hr.2.1, rfl⟩
    hi hread hv
  exact ⟨t, stepsFrom_two hstep ht, hAR⟩

/-- Settles O45: each write leaves a state that the next micro-steps run from as from any other. -/
theorem hostWriteBetweenMicroSteps : Obligations.HostWriteBetweenMicroSteps := by
  refine fun s v hwf => ⟨fun a => writeMemory_IR a v s, fun hr hop hib hne hv => ?_, fun hr hop hib hv => ?_,
    fun hr hi => ?_, fun hr hi => ?_⟩
  · have hkeep : (s.mem.write (addrField (s.mem.read s.AR)) (BitVec.ofNat 16 v)).read s.AR = s.mem.read s.AR :=
      Memory.read_write_other _ _ hne.symm
    rw [writeMemory_address]
    refine steps_T1_pointer (s := { s with mem := s.mem.write (addrField (s.mem.read s.AR)) (BitVec.ofNat 16 v) })
      hr ?_ ?_ hv
    · rw [hkeep]
      exact ⟨hop, hib⟩
    · rw [hkeep]
      exact Memory.read_write_same _ _ hwf
  · obtain ⟨t, ht, hAR, -⟩ := step_T2_after_write hwf hr ⟨hop, hib⟩ hv
    exact ⟨t, ht, hAR⟩
  · rw [writeMemory_address]
    exact steps_isz_T4 (s := { s with mem := s.mem.write s.AR (BitVec.ofNat 16 v) }) (Memory.wf_write _ _ hwf) hr hi
  · rw [writeMemory_address]
    exact step_isz_T5 (s := { s with mem := s.mem.write s.AR (BitVec.ofNat 16 v) }) (Memory.wf_write _ _ hwf) hr hi

/-! ### assemble, the queries, reset and session start -/

/-- If every line has a word and there are addresses for all, the assembler yields the words (R55, R60). -/
theorem assembleFrom_words {k : Nat} {lines : List String} {ws : List Word}
    (h : lines.map encodeLine = ws.map some) (hk : k + lines.length ≤ Config.memWords + 1) :
    assembleFrom k lines = .ok ws := by
  induction lines generalizing k ws with
  | nil =>
    obtain rfl : ws = [] := by simpa using h.symm
    rfl
  | cons line rest ih =>
    cases ws with
    | nil => simp at h
    | cons w ws =>
      simp only [List.map_cons, List.cons.injEq] at h
      simp only [List.length_cons] at hk
      rw [assembleFrom, if_neg (by omega), h.1, ih h.2 (by omega)]

/-- Cell `a` after a load holds word `a` of the program, and zero past it (R101). -/
theorem imageFrom_read (ws : List Word) (a : Address) :
    (imageFrom 0 ws).read a = if h : a.toNat < ws.length then ws[a.toNat] else 0 := by
  have hget := imageFrom_get 0 a.toNat ws
  rw [Nat.zero_add] at hget
  rw [Memory.read, hget, List.getD_eq_getElem?_getD]
  split
  · rw [List.getElem?_eq_getElem ‹_›]
    rfl
  · rw [List.getElem?_eq_none (Nat.not_lt.mp ‹_›)]
    rfl

/-- The 4096 cells in order, each read at its Address (R103). -/
theorem memoryContents_eq (s : State) :
    memoryContents s = (List.range 4096).map fun a => (a, s.mem.read (BitVec.ofNat 12 a)) := by
  refine List.map_congr_left fun a ha => ?_
  rw [Memory.read, toNat_address (lt_memWords_iff.mp (List.mem_range.mp ha))]

/-- Settles O46: the words of the lines make the image, and a bad line keeps the state. -/
theorem assembleCommitsAllOrNothing : Obligations.AssembleCommitsAllOrNothing := by
  refine ⟨fun lines ws s h hl => ?_, fun lines k s h => by rw [assemble, h]⟩
  have hlen : lines.length = ws.length := by simpa using congrArg List.length h
  have hws : assembleLines lines = .ok ws := assembleFrom_words h (by rw [Config.memWords]; omega)
  refine ⟨imageFrom 0 ws, imageFrom_sorted ?_, imageFrom_read ws, ?_⟩
  · rw [Config.memWords]
    omega
  · rw [assemble, hws, hlen]
    simp only [memoryContents_eq]
    rfl

/-- Settles O49: `memoryContents_eq` gives the 4096 entries, and the other queries are parts of the state. -/
theorem queriesReadTheState : Obligations.QueriesReadTheState := by
  refine fun s => ⟨?_, fun a ha => ?_, rfl, rfl, queries_keep s⟩
  · simp [memoryContents_eq]
  · simp [memoryContents_eq]

/-- Settles O50, field by field. -/
theorem resetKeepsMemoryAndProgram : Obligations.ResetKeepsMemoryAndProgram :=
  ⟨fun _ => rfl, rfl⟩

/-- Settles O51, field by field; a write in range succeeds by `writeMemory_ok`. -/
theorem sessionStartState : Obligations.SessionStartState := by
  refine ⟨fun _ => rfl, rfl, rfl, rfl, rfl, rfl, rfl, rfl, rfl, rfl, rfl, rfl, rfl, rfl, fun _ => rfl,
    fun a w ha => ?_, _, rfl⟩
  rw [writeMemory_ok w _ (lt_memWords_iff.mpr ha)]

end Sys2Proof.Claims
end
